-- ==== Sys2Proof/Word.lean ====
section
/-! DEFINITION. The word types of the rust-chip8 CORE (spec/00_scope.md R7, R8): bytes, 16-bit words, and the finite
names of registers and keys. -/

namespace Sys2Proof

/-- One byte: a byte of memory (R70), an immediate `nn` (R101), the timer's value (R41), the random byte (R183); and a V register
of this hardware (R7 `REG_W` = 8). -/
abbrev Byte := BitVec 8

/-- A 16-bit word: an opcode (R100); and `pc`, `I` and a return address of this hardware (R7 `PC_W` = `I_W` = 16). -/
abbrev Word := BitVec 16

/-- The 12-bit address field `nnn` of an opcode (R101). -/
abbrev Addr12 := BitVec 12

/-- A register number as an opcode's 4-bit field gives it, V0 to VF (R30, R101). It is an index, never added to or masked. -/
abbrev RegIdx := Fin 16

/-- A key number of this hardware, 0 to 15 (R40, R7 `NKEYS` = 16). -/
abbrev Key := Fin 16

/-- VF, register 15 (R31), among however many registers there are. -/
abbrev vF {nr : Nat} [NeZero nr] : Fin nr := Fin.ofNat nr 15

/-- V0, the implicit operand of Bnnn (R153). -/
abbrev v0 {nr : Nat} [NeZero nr] : Fin nr := Fin.ofNat nr 0

end Sys2Proof
end

