-- ==== Sys2Proof/Syntax.lean ====
section
/-! DEFINITION. The instructions: one constructor per row of spec/opcode_table.json (spec/30_encoding.md R104), with the
fields its format names (R101, R110), unconverted but for register numbers, which are indexes. -/

namespace Sys2Proof

/-- The 34 operations of R104, in the table's order. -/
inductive Instr where
  /-- 00E0 `CLS` (R246). -/
  | cls
  /-- 00EE `RET` (R146). -/
  | ret
  /-- 1nnn `JP nnn` (R147). -/
  | jp (nnn : Addr12)
  /-- 2nnn `CALL nnn` (R148). -/
  | call (nnn : Addr12)
  /-- 3xnn `SE Vx, nn` (R149). -/
  | seImm (x : RegIdx) (nn : Byte)
  /-- 4xnn `SNE Vx, nn` (R150). -/
  | sneImm (x : RegIdx) (nn : Byte)
  /-- 5xy0 `SE Vx, Vy` (R151). -/
  | seReg (x y : RegIdx)
  /-- 6xnn `LD Vx, nn` (R172). -/
  | ldImm (x : RegIdx) (nn : Byte)
  /-- 7xnn `ADD Vx, nn` (R173). -/
  | addImm (x : RegIdx) (nn : Byte)
  /-- 8xy0 `LD Vx, Vy` (R174). -/
  | ldReg (x y : RegIdx)
  /-- 8xy1 `OR Vx, Vy` (R175). -/
  | orReg (x y : RegIdx)
  /-- 8xy2 `AND Vx, Vy` (R176). -/
  | andReg (x y : RegIdx)
  /-- 8xy3 `XOR Vx, Vy` (R177). -/
  | xorReg (x y : RegIdx)
  /-- 8xy4 `ADD Vx, Vy` (R178). -/
  | addReg (x y : RegIdx)
  /-- 8xy5 `SUB Vx, Vy` (R179). -/
  | sub (x y : RegIdx)
  /-- 8xy6 `SHR Vx {, Vy}` (R180); `y` is carried and ignored (R106). -/
  | shr (x y : RegIdx)
  /-- 8xy7 `SUBN Vx, Vy` (R181). -/
  | subn (x y : RegIdx)
  /-- 8xyE `SHL Vx {, Vy}` (R182); `y` is carried and ignored (R106). -/
  | shl (x y : RegIdx)
  /-- 9xy0 `SNE Vx, Vy` (R152). -/
  | sneReg (x y : RegIdx)
  /-- Annn `LD I, nnn` (R210). -/
  | ldI (nnn : Addr12)
  /-- Bnnn `JP V0, nnn` (R153). -/
  | jpV0 (nnn : Addr12)
  /-- Cxnn `RND Vx, nn` (R184). -/
  | rnd (x : RegIdx) (nn : Byte)
  /-- Dxyn `DRW Vx, Vy, n` (R247); `n` is the number of rows, 0 to 15 (see `Instr.wellFormed`). -/
  | drw (x y : RegIdx) (n : Nat)
  /-- Ex9E `SKP Vx` (R270). -/
  | skp (x : RegIdx)
  /-- ExA1 `SKNP Vx` (R271). -/
  | sknp (x : RegIdx)
  /-- Fx07 `LD Vx, DT` (R273). -/
  | ldVxDt (x : RegIdx)
  /-- Fx0A `LD Vx, K` (R272). -/
  | ldK (x : RegIdx)
  /-- Fx15 `LD DT, Vx` (R274). -/
  | ldDtVx (x : RegIdx)
  /-- Fx18 `LD ST, Vx` (R275). -/
  | ldStVx (x : RegIdx)
  /-- Fx1E `ADD I, Vx` (R211). -/
  | addI (x : RegIdx)
  /-- Fx29 `LD F, Vx` (R212). -/
  | ldF (x : RegIdx)
  /-- Fx33 `LD B, Vx` (R213). -/
  | ldB (x : RegIdx)
  /-- Fx55 `LD [I], Vx` (R214). -/
  | ldMemRegs (x : RegIdx)
  /-- Fx65 `LD Vx, [I]` (R215). -/
  | ldRegsMem (x : RegIdx)
deriving DecidableEq, Repr

end Sys2Proof
end

