-- ==== Sys2Proof/Decode.lean ====
section
/-! DEFINITION. The decoder (chip8_decoder, spec/30_encoding.md R100 to R110), the encoder written from the same table, and
the rows of the opcode map (R104) as masks and matches. -/

namespace Sys2Proof

/-! ## Fields (R101) -/

/-- `hi` = `op[15:12]`, the first dispatch key (R101). -/
def fieldHi (op : Word) : BitVec 4 := op.extractLsb' 12 4
/-- `x` = `op[11:8]` (R101). -/
def fieldX (op : Word) : BitVec 4 := op.extractLsb' 8 4
/-- `y` = `op[7:4]` (R101). -/
def fieldY (op : Word) : BitVec 4 := op.extractLsb' 4 4
/-- `n` = `op[3:0]` (R101). -/
def fieldN (op : Word) : BitVec 4 := op.extractLsb' 0 4
/-- `nn` = `op[7:0]` (R101). -/
def fieldNN (op : Word) : Byte := op.extractLsb' 0 8
/-- `nnn` = `op[11:0]` (R101). -/
def fieldNNN (op : Word) : Addr12 := op.extractLsb' 0 12

/-- The register a nibble names (R30 "indexed by nibble"). -/
def regOfBits (b : BitVec 4) : RegIdx := ⟨b.toNat, b.isLt⟩
/-- The nibble that names a register (R30). -/
def bitsOfReg {nr : Nat} (x : Fin nr) : BitVec 4 := BitVec.ofNat 4 x.val

/-! ## Decoding -/

/-- Why the decoder rejects: the illegal opcodes of R105, by group, and a byte list too short to hold an opcode. The machine
turns each of the first six into the `DecodeError` fault (R300); safe, since it is the fault the spec names. -/
inductive DecodeReject where
  /-- 0nnn other than 00E0 and 00EE. -/
  | illegalGroup0
  /-- 5xyn with n ≠ 0. -/
  | illegalGroup5
  /-- 8xyn with n in 8 to D, or F. -/
  | illegalGroup8
  /-- 9xyn with n ≠ 0. -/
  | illegalGroup9
  /-- Exnn with nn neither 9E nor A1. -/
  | illegalGroupE
  /-- Fxnn with nn none of 07, 0A, 15, 18, 1E, 29, 33, 55, 65. -/
  | illegalGroupF
  /-- Fewer than two bytes (R100); raised by `decodeBytes` only. -/
  | tooShort
deriving DecidableEq, Repr

/-- Group 8 dispatches on `n` (R103). -/
def decodeGroup8 (x y : RegIdx) (n : BitVec 4) : Except DecodeReject Instr :=
  match n with
  | 0x0#4 => .ok (.ldReg x y)
  | 0x1#4 => .ok (.orReg x y)
  | 0x2#4 => .ok (.andReg x y)
  | 0x3#4 => .ok (.xorReg x y)
  | 0x4#4 => .ok (.addReg x y)
  | 0x5#4 => .ok (.sub x y)
  | 0x6#4 => .ok (.shr x y)
  | 0x7#4 => .ok (.subn x y)
  | 0xE#4 => .ok (.shl x y)
  | _ => .error .illegalGroup8

/-- Group F dispatches on `nn` (R103). -/
def decodeGroupF (x : RegIdx) (nn : Byte) : Except DecodeReject Instr :=
  match nn with
  | 0x07#8 => .ok (.ldVxDt x)
  | 0x0A#8 => .ok (.ldK x)
  | 0x15#8 => .ok (.ldDtVx x)
  | 0x18#8 => .ok (.ldStVx x)
  | 0x1E#8 => .ok (.addI x)
  | 0x29#8 => .ok (.ldF x)
  | 0x33#8 => .ok (.ldB x)
  | 0x55#8 => .ok (.ldMemRegs x)
  | 0x65#8 => .ok (.ldRegsMem x)
  | _ => .error .illegalGroupF

/-- The decoder (R103, R104, R105, R109): total, first on the high nibble, then on `nnn`, `n` or `nn` as the group needs. -/
def decode (op : Word) : Except DecodeReject Instr :=
  let x := regOfBits (fieldX op)
  let y := regOfBits (fieldY op)
  let n := fieldN op
  let nn := fieldNN op
  let nnn := fieldNNN op
  match fieldHi op with
  | 0x0#4 => if nnn = 0x0E0#12 then .ok .cls else if nnn = 0x0EE#12 then .ok .ret else .error .illegalGroup0
  | 0x1#4 => .ok (.jp nnn)
  | 0x2#4 => .ok (.call nnn)
  | 0x3#4 => .ok (.seImm x nn)
  | 0x4#4 => .ok (.sneImm x nn)
  | 0x5#4 => if n = 0x0#4 then .ok (.seReg x y) else .error .illegalGroup5
  | 0x6#4 => .ok (.ldImm x nn)
  | 0x7#4 => .ok (.addImm x nn)
  | 0x8#4 => decodeGroup8 x y n
  | 0x9#4 => if n = 0x0#4 then .ok (.sneReg x y) else .error .illegalGroup9
  | 0xA#4 => .ok (.ldI nnn)
  | 0xB#4 => .ok (.jpV0 nnn)
  | 0xC#4 => .ok (.rnd x nn)
  | 0xD#4 => .ok (.drw x y n.toNat)
  | 0xE#4 => if nn = 0x9E#8 then .ok (.skp x) else if nn = 0xA1#8 then .ok (.sknp x) else .error .illegalGroupE
  | _ => decodeGroupF x nn

/-- The opcode of two bytes, the byte at the lower address in bits 15 to 8 (R77, R100). -/
def opcodeOfBytes (hi lo : Byte) : Word := hi ++ lo

/-- Decoding from a byte stream: one instruction is exactly two bytes, big-endian (R100); the rest of the list is returned. -/
def decodeBytes : List Byte → Except DecodeReject (Instr × List Byte)
  | hi :: lo :: rest =>
    match decode (opcodeOfBytes hi lo) with
    | .ok i => .ok (i, rest)
    | .error e => .error e
  | _ => .error .tooShort

/-- An opcode as the two bytes memory holds, lower address first (R77). -/
def bytesOfOpcode (op : Word) : Byte × Byte := (op.extractLsb' 8 8, op.extractLsb' 0 8)

/-- The opcode whose bits are `w` as spec/opcode_table.json numbers them; bits from `nbits` up are 0 (R100: one 16-bit word). -/
def tableWord (nbits w : Nat) : Word := BitVec.ofNat 16 (w % 2 ^ nbits)

/-- The instruction the decoder reads from a word numbered as spec/opcode_table.json numbers it: laid out as two bytes,
big-endian, and decoded. -/
def decodeTableWord (nbits w : Nat) : Option Instr :=
  let bytes := bytesOfOpcode (tableWord nbits w)
  match decodeBytes [bytes.1, bytes.2] with
  | .ok (i, _) => some i
  | .error _ => none

/-! ## Encoding (the formats of R101, the patterns of R104) -/

/-- Format NNN: `hi`, `nnn` (R101). -/
def packNNN (hi : BitVec 4) (nnn : Addr12) : Word := hi ++ nnn
/-- Format XNN, and format X with a fixed `nn`: `hi`, `x`, `nn` (R101). -/
def packXNN {nr : Nat} (hi : BitVec 4) (x : Fin nr) (nn : Byte) : Word := hi ++ (bitsOfReg x ++ nn)
/-- Formats XY and XYN: `hi`, `x`, `y`, `n` (R101). -/
def packXYN {nr : Nat} (hi : BitVec 4) (x y : Fin nr) (n : BitVec 4) : Word := hi ++ (bitsOfReg x ++ (bitsOfReg y ++ n))

/-- The opcode of an instruction (R101, R104). -/
def encode : Instr → Word
  | .cls => 0x00E0#16
  | .ret => 0x00EE#16
  | .jp nnn => packNNN 0x1#4 nnn
  | .call nnn => packNNN 0x2#4 nnn
  | .seImm x nn => packXNN 0x3#4 x nn
  | .sneImm x nn => packXNN 0x4#4 x nn
  | .seReg x y => packXYN 0x5#4 x y 0x0#4
  | .ldImm x nn => packXNN 0x6#4 x nn
  | .addImm x nn => packXNN 0x7#4 x nn
  | .ldReg x y => packXYN 0x8#4 x y 0x0#4
  | .orReg x y => packXYN 0x8#4 x y 0x1#4
  | .andReg x y => packXYN 0x8#4 x y 0x2#4
  | .xorReg x y => packXYN 0x8#4 x y 0x3#4
  | .addReg x y => packXYN 0x8#4 x y 0x4#4
  | .sub x y => packXYN 0x8#4 x y 0x5#4
  | .shr x y => packXYN 0x8#4 x y 0x6#4
  | .subn x y => packXYN 0x8#4 x y 0x7#4
  | .shl x y => packXYN 0x8#4 x y 0xE#4
  | .sneReg x y => packXYN 0x9#4 x y 0x0#4
  | .ldI nnn => packNNN 0xA#4 nnn
  | .jpV0 nnn => packNNN 0xB#4 nnn
  | .rnd x nn => packXNN 0xC#4 x nn
  | .drw x y n => packXYN 0xD#4 x y (BitVec.ofNat 4 n)
  | .skp x => packXNN 0xE#4 x 0x9E#8
  | .sknp x => packXNN 0xE#4 x 0xA1#8
  | .ldVxDt x => packXNN 0xF#4 x 0x07#8
  | .ldK x => packXNN 0xF#4 x 0x0A#8
  | .ldDtVx x => packXNN 0xF#4 x 0x15#8
  | .ldStVx x => packXNN 0xF#4 x 0x18#8
  | .addI x => packXNN 0xF#4 x 0x1E#8
  | .ldF x => packXNN 0xF#4 x 0x29#8
  | .ldB x => packXNN 0xF#4 x 0x33#8
  | .ldMemRegs x => packXNN 0xF#4 x 0x55#8
  | .ldRegsMem x => packXNN 0xF#4 x 0x65#8

/-! ## The opcode map as rows (R104) -/

/-- A row of the opcode map: an opcode selects it when `op AND mask = pattern` (R104). -/
structure OpcodeRow where
  mask : Word
  pattern : Word
deriving DecidableEq, Repr

/-- Whether an opcode selects a row (R104). -/
def OpcodeRow.selects (r : OpcodeRow) (op : Word) : Bool := (op &&& r.mask) == r.pattern

/-- The row of each instruction: the mask and match columns of R104. -/
def Instr.row : Instr → OpcodeRow
  | .cls => ⟨0xFFFF, 0x00E0⟩
  | .ret => ⟨0xFFFF, 0x00EE⟩
  | .jp _ => ⟨0xF000, 0x1000⟩
  | .call _ => ⟨0xF000, 0x2000⟩
  | .seImm _ _ => ⟨0xF000, 0x3000⟩
  | .sneImm _ _ => ⟨0xF000, 0x4000⟩
  | .seReg _ _ => ⟨0xF00F, 0x5000⟩
  | .ldImm _ _ => ⟨0xF000, 0x6000⟩
  | .addImm _ _ => ⟨0xF000, 0x7000⟩
  | .ldReg _ _ => ⟨0xF00F, 0x8000⟩
  | .orReg _ _ => ⟨0xF00F, 0x8001⟩
  | .andReg _ _ => ⟨0xF00F, 0x8002⟩
  | .xorReg _ _ => ⟨0xF00F, 0x8003⟩
  | .addReg _ _ => ⟨0xF00F, 0x8004⟩
  | .sub _ _ => ⟨0xF00F, 0x8005⟩
  | .shr _ _ => ⟨0xF00F, 0x8006⟩
  | .subn _ _ => ⟨0xF00F, 0x8007⟩
  | .shl _ _ => ⟨0xF00F, 0x800E⟩
  | .sneReg _ _ => ⟨0xF00F, 0x9000⟩
  | .ldI _ => ⟨0xF000, 0xA000⟩
  | .jpV0 _ => ⟨0xF000, 0xB000⟩
  | .rnd _ _ => ⟨0xF000, 0xC000⟩
  | .drw _ _ _ => ⟨0xF000, 0xD000⟩
  | .skp _ => ⟨0xF0FF, 0xE09E⟩
  | .sknp _ => ⟨0xF0FF, 0xE0A1⟩
  | .ldVxDt _ => ⟨0xF0FF, 0xF007⟩
  | .ldK _ => ⟨0xF0FF, 0xF00A⟩
  | .ldDtVx _ => ⟨0xF0FF, 0xF015⟩
  | .ldStVx _ => ⟨0xF0FF, 0xF018⟩
  | .addI _ => ⟨0xF0FF, 0xF01E⟩
  | .ldF _ => ⟨0xF0FF, 0xF029⟩
  | .ldB _ => ⟨0xF0FF, 0xF033⟩
  | .ldMemRegs _ => ⟨0xF0FF, 0xF055⟩
  | .ldRegsMem _ => ⟨0xF0FF, 0xF065⟩

/-- The 34 rows of R104, in the table's order (each from an instruction with zero fields). -/
def opcodeTable : List OpcodeRow :=
  [Instr.cls.row, Instr.ret.row, (Instr.jp 0).row, (Instr.call 0).row, (Instr.seImm 0 0).row, (Instr.sneImm 0 0).row,
    (Instr.seReg 0 0).row, (Instr.ldImm 0 0).row, (Instr.addImm 0 0).row, (Instr.ldReg 0 0).row, (Instr.orReg 0 0).row,
    (Instr.andReg 0 0).row, (Instr.xorReg 0 0).row, (Instr.addReg 0 0).row, (Instr.sub 0 0).row, (Instr.shr 0 0).row,
    (Instr.subn 0 0).row] ++
  [(Instr.shl 0 0).row, (Instr.sneReg 0 0).row, (Instr.ldI 0).row, (Instr.jpV0 0).row, (Instr.rnd 0 0).row,
    (Instr.drw 0 0 0).row, (Instr.skp 0).row, (Instr.sknp 0).row, (Instr.ldVxDt 0).row, (Instr.ldK 0).row,
    (Instr.ldDtVx 0).row, (Instr.ldStVx 0).row, (Instr.addI 0).row, (Instr.ldF 0).row, (Instr.ldB 0).row,
    (Instr.ldMemRegs 0).row, (Instr.ldRegsMem 0).row]

end Sys2Proof
end

