-- ==== Sys2Proof/Machine/Flags.lean ====
section
/-! DEFINITION. Every flag computation of the ALU and of the draw (spec/41_alu.md R171, R178 to R182; spec/43_display.md
R247), for registers of any width `REG_W` (R7; log 7). Each gives the value that VF receives. -/

namespace Sys2Proof.Machine

/-- A flag as VF holds it: 1 or 0. -/
def flagByte {w : Nat} (b : Bool) : BitVec w := if b then 1 else 0

/-- The carry of 8xy4: 1 exactly when the natural sum exceeds the largest register value, 255 (R171, R178). -/
def carryFlag {w : Nat} (a b : BitVec w) : BitVec w := flagByte (decide (2 ^ w - 1 < a.toNat + b.toNat))

/-- The NOT-borrow flag of `a - b`: 1 exactly when `a ≥ b` unsigned (R171, R179, R181; conflict C3). -/
def notBorrowFlag {w : Nat} (a b : BitVec w) : BitVec w := flagByte (decide (b.toNat ≤ a.toNat))

/-- The bit a right shift by one moves out, `a AND 1` (R180). -/
def shiftRightFlag {w : Nat} (a : BitVec w) : BitVec w := a &&& 1

/-- The bit a left shift by one moves out, `a >> 7` for 8 bits (R182). -/
def shiftLeftFlag {w : Nat} (a : BitVec w) : BitVec w := a >>> (w - 1)

/-- The collision flag of Dxyn (R247). -/
def collisionFlag {w : Nat} (erased : Bool) : BitVec w := flagByte erased

end Sys2Proof.Machine
end

