-- ==== Sys2Proof/Machine/Params.lean ====
section
/-! DEFINITION. Nine of the parameters of spec/00_scope.md R7 as one argument of the machine, with the values R7 fixes for this
hardware (notes/assumptions/7.md says which of them the spec itself decided). The other five, R7's widths and counts, are the
arguments of `State` (Machine/State.lean), since the types of its fields depend on them. -/

namespace Sys2Proof

/-- The parameters of R7 that no field's type depends on. The host's step takes a state and nothing else, so they travel in the
state, where no step changes them (log 7). -/
structure Params where
  /-- `LOAD_ADDR`: the fixed load offset and reset value of `pc` (R7, R74). -/
  loadAddr : Nat
  /-- `GLYPH_BYTES`: bytes per built-in glyph (R7). -/
  glyphBytes : Nat
  /-- `GLYPH_COUNT`: built-in glyphs (R7). -/
  glyphCount : Nat
  /-- `MEM_SIZE`: bytes in the memory array (R7, R70; decision D1). -/
  memSize : Nat
  /-- `DISPLAY_W`: display width in pixels (R7, R240). -/
  displayW : Nat
  /-- `DISPLAY_H`: display height in pixels (R7, R240; decision D2). -/
  displayH : Nat
  /-- `GLYPHS`: the glyph bytes, glyph k from byte `k * glyphBytes` (R7, R75; decision D3). -/
  glyphs : List Byte
  /-- `TICK_MS`: the timer's tick period in milliseconds (R7, R321; decision D4). -/
  tickMs : Nat
  /-- `STACK_CAPACITY`: the maximum call-stack depth, `none` for unbounded (R7, R144; decision D8). -/
  stackCapacity : Option Nat
deriving DecidableEq, Repr

/-- The conventional font, glyph k at [5k, 5k+5) (R75; decision D3). -/
def Params.font : List Byte :=
  [0xF0, 0x90, 0x90, 0x90, 0xF0,
   0x20, 0x60, 0x20, 0x20, 0x70,
   0xF0, 0x10, 0xF0, 0x80, 0xF0,
   0xF0, 0x10, 0xF0, 0x10, 0xF0] ++
  [0x90, 0x90, 0xF0, 0x10, 0x10,
   0xF0, 0x80, 0xF0, 0x10, 0xF0,
   0xF0, 0x80, 0xF0, 0x90, 0xF0,
   0xF0, 0x10, 0x20, 0x40, 0x40] ++
  [0xF0, 0x90, 0xF0, 0x90, 0xF0,
   0xF0, 0x90, 0xF0, 0x10, 0xF0,
   0xF0, 0x90, 0xF0, 0x90, 0x90,
   0xE0, 0x90, 0xE0, 0x90, 0xE0] ++
  [0xF0, 0x80, 0x80, 0x80, 0xF0,
   0xE0, 0x90, 0x90, 0x90, 0xE0,
   0xF0, 0x80, 0xF0, 0x80, 0xF0,
   0xF0, 0x80, 0xF0, 0x80, 0x80]

/-- The values of this hardware (R7, column "value"). -/
def Params.hardware : Params where
  loadAddr := 0x200
  glyphBytes := 5
  glyphCount := 16
  memSize := 4096
  displayW := 64
  displayH := 32
  glyphs := Params.font
  tickMs := 17
  stackCapacity := none

/-- What any choice of parameters has to meet: memory lies within the 16-bit addresses (R70), the glyphs are as many bytes as
their count says and lie below the program (R74), the program starts within memory, and no size is zero. -/
abbrev Params.legal (p : Params) : Prop :=
  p.memSize ≤ 65536 ∧ p.glyphs.length = p.glyphCount * p.glyphBytes ∧ p.glyphs.length ≤ p.loadAddr ∧
  p.loadAddr ≤ p.memSize ∧ 0 < p.displayW ∧ 0 < p.displayH ∧ 0 < p.tickMs

end Sys2Proof
end

