-- ==== Sys2Proof/Machine/State.lean ====
section
/-! DEFINITION. The state of the CORE (spec/10_state.md R30 to R45), all of it as plain data, with its reset value, and the
reasons a step can stop. -/

namespace Sys2Proof.Machine

/-- The fault classes of R300. They are causes recorded in `Status`, not ways for the model to stop (log 4). -/
inductive FaultCode where
  /-- An opcode outside the catalogue (R105, R300 code 1). -/
  | decodeError
  /-- 00EE with an empty call stack (R145, R300 code 2). -/
  | stackUnderflow
  /-- An access at or above `MEM_SIZE` (R71, R72, R300 code 3). -/
  | outOfBounds
  /-- A push on a full stack; never with an unbounded stack (R144, R300 code 4). -/
  | stackOverflow
deriving DecidableEq, Repr

/-- The fault record `{code, pc, op, addr}` (R301). -/
structure FaultRecord (pw : Nat := 16) where
  code : FaultCode
  /-- `pc` at the start of the faulting step. -/
  pc : BitVec pw
  /-- The opcode, `none` when fetch raised the fault. -/
  op : Option Word
  /-- The out-of-bounds address, a natural; `none` for the other faults. -/
  addr : Option Nat
deriving DecidableEq, Repr

/-- The run status (R43). -/
inductive Status (pw : Nat := 16) where
  | running
  | faulted (report : FaultRecord pw)
deriving DecidableEq, Repr

/-- One step's input from the host: what it did to the keyboard since the last step, how far the clock moved, and the random
byte (R12, R326, R323, R183). The clock is given as an advance, so samples never decrease (R323; log 2). -/
structure HostInput (nk : Nat := 16) where
  /-- `none`: no `SetPressed`; `some k`: `SetPressed k`, the last one before the step (R329). -/
  setPressed : Option (Option (Fin nk))
  /-- Milliseconds since the previous sample. -/
  elapsed : Nat
  /-- The step input `rand`. -/
  rand : Byte
deriving DecidableEq, Repr

/-- Memory as the bytes that differ from what an unlisted address reads as, by rising address (see Machine/Ops.lean). -/
abbrev Memory := List Host.Cell

/-- The pixel grid, row-major: pixel (px, py) is entry `py * DISPLAY_W + px` (R39, R241). That it has `DISPLAY_W * DISPLAY_H`
entries is `Display.wf`, part of the invariant. -/
abbrev Display := List Bool

/-- The whole machine as "one explicitly owned, explicitly passed aggregate" (spec/10_state.md). Its widths and counts are
arguments, at R7's values unless others are given: `nr` = `NREG`, `rw` = `REG_W`, `pw` = `PC_W`, `iw` = `I_W`, `nk` = `NKEYS`
(log 7). `State` alone is this hardware's. -/
structure State (nr : Nat := 16) (rw : Nat := 8) (pw : Nat := 16) (iw : Nat := 16) (nk : Nat := 16) where
  /-- The parameters the machine is built with (R7); no step changes them (log 7). -/
  params : Params
  /-- V0 to VF (R30). -/
  v : Vector (BitVec rw) nr
  /-- The index register I (R35). -/
  i : BitVec iw
  /-- The program counter (R34). -/
  pc : BitVec pw
  /-- The call stack, oldest entry first; the top is the last entry (R37, R144). -/
  stack : List (BitVec pw)
  /-- Memory (R38). -/
  mem : Memory
  /-- The display (R39). -/
  disp : Display
  /-- The pressed key, if any (R40). -/
  key : Option (Fin nk)
  /-- `TimerValue` (R41). -/
  timerValue : Byte
  /-- `TimerInstant`, in whole milliseconds (R41). -/
  timerInstant : Nat
  /-- `WaitX`: the destination of a pending Fx0A (R42). -/
  waitX : Option (Fin nr)
  /-- `Status` (R43). -/
  status : Status pw
  /-- MODEL'S OWN: the clock sample of the current step, an input by R44 (log 1). -/
  now : Nat
  /-- MODEL'S OWN: the random byte of the current step, an input by R44 (log 1). -/
  rand : Byte
  /-- MODEL'S OWN: host inputs already fixed for the coming steps, the next one first (log 1). -/
  host : List (HostInput nk)
  /-- MODEL'S OWN: how many host inputs have been taken; the index of the next free one (log 1). -/
  draws : Nat
deriving DecidableEq, Repr

/-- Reasons for the machine to stop outside its own `Status`: none. Every fault of R300 is a next state with
`Status` = faulted (R303; log 4), so no constructor is needed. -/
inductive Fault where
deriving DecidableEq, Repr

/-- Reasons for the model to give no meaning. -/
inductive Refusal where
  /-- An instruction that has no meaning yet, by its mnemonic; raised by exec's arms only, and by none of them now. Safe. -/
  | notModelled (mnemonic : String)
deriving DecidableEq, Repr

/-- The outcome of a step or an instruction. -/
abbrev Result (nr : Nat := 16) (rw : Nat := 8) (pw : Nat := 16) (iw : Nat := 16) (nk : Nat := 16) :=
  Host.Outcome (State nr rw pw iw nk) Fault Refusal

/-- A machine with the given parameters, R7's widths and counts unless others are given, right after reset, with no ROM (R45,
R350, R351). `now` = `timerInstant` = 0 is the reset instant, whose origin is arbitrary (R323; log 3); no host input is
fixed, so all are free (log 1). -/
def State.resetWith (p : Params) (nr : Nat := 16) (rw : Nat := 8) (pw : Nat := 16) (iw : Nat := 16) (nk : Nat := 16) :
    State nr rw pw iw nk where
  params := p
  v := Vector.replicate nr 0
  i := 0
  pc := BitVec.ofNat pw p.loadAddr
  stack := []
  mem := []
  disp := List.replicate (p.displayW * p.displayH) false
  key := none
  timerValue := 0
  timerInstant := 0
  waitX := none
  status := .running
  now := 0
  rand := 0
  host := []
  draws := 0

/-- This hardware right after reset (R7, R45). -/
def State.reset : State := State.resetWith Params.hardware

end Sys2Proof.Machine
end

