-- ==== Sys2Proof/Machine/Operands.lean ====
section
/-! DEFINITION. Every operand form: registers, the zero-extended address field, the index-relative address on naturals, the
glyph address and the decimal digits (spec/30_encoding.md R102; spec/20_memory.md R73; spec/42_index_memory.md R212, R213). -/

namespace Sys2Proof.Machine

variable {nr rw pw iw nk : Nat}

/-- `zext_16(nnn)`: an address as `pc` or I holds it (R102). -/
def addrWord {w : Nat} (nnn : Addr12) : BitVec w := nnn.setWidth w

/-- `zext_16(V[x])`: a register's value as `pc` or I holds it (R211, R153). -/
def byteWord {w : Nat} (b : BitVec rw) : BitVec w := b.setWidth w

/-- The address of the k-th byte at I, `I + k` on naturals: never wrapped (R73). -/
def indexAddr (s : State nr rw pw iw nk) (k : Nat) : Nat := s.i.toNat + k

/-- The glyph address of a byte: the whole byte times `GLYPH_BYTES` (R212). -/
def glyphAddr {w : Nat} (p : Params) (b : BitVec rw) : BitVec w := BitVec.ofNat w (b.toNat * p.glyphBytes)

/-- Hundreds, tens and ones of a byte, in the order Fx33 stores them (R213). -/
def bcdDigits (b : BitVec rw) : List Byte :=
  [BitVec.ofNat 8 (b.toNat / 100), BitVec.ofNat 8 (b.toNat / 10 % 10), BitVec.ofNat 8 (b.toNat % 10)]

/-- What Fx55 and Fx65 add to I: `x + 1` (R214, R215). -/
def blockLength (x : Fin nr) : Nat := x.val + 1

end Sys2Proof.Machine
end

