-- ==== Sys2Proof/Machine/Ops.lean ====
section
/-! DEFINITION. The named operations over registers, pc, call stack, memory, display, keyboard and timer, which are the bus
operations of spec/20_memory.md R80 and the state primitives of spec/00_scope.md R9, and fault entry (spec/60_exceptions.md
R303). -/

namespace Sys2Proof.Machine

variable {nr rw pw iw nk : Nat}

/-! ## Registers and pc -/

/-- `V[x]` (R30): no register is hard-wired. Every operation here is for any widths and counts of R7 (log 7). -/
def State.getV (s : State nr rw pw iw nk) (x : Fin nr) : BitVec rw := s.v[x.val]

/-- `V[x] <- b` (R30, R33). -/
def State.setV (s : State nr rw pw iw nk) (x : Fin nr) (b : BitVec rw) : State nr rw pw iw nk := { s with v := s.v.set x.val b }

/-- `I <- a` (R35). -/
def State.setI (s : State nr rw pw iw nk) (a : BitVec iw) : State nr rw pw iw nk := { s with i := a }

/-- `pc <- a` (R34). -/
def State.setPc (s : State nr rw pw iw nk) (a : BitVec pw) : State nr rw pw iw nk := { s with pc := a }

/-- The advance class: `pc <- trunc_16(pc + 2)` (R142). -/
def State.advance (s : State nr rw pw iw nk) : State nr rw pw iw nk := s.setPc (s.pc + 2)

/-- The skip class: `pc <- trunc_16(pc + 4)` if the condition holds, else `trunc_16(pc + 2)` (R142). -/
def State.skipIf (s : State nr rw pw iw nk) (c : Bool) : State nr rw pw iw nk := s.setPc (if c then s.pc + 4 else s.pc + 2)

/-- `V[k] <- bytes[k]` for every `k` the list reaches; the other registers keep their values (R215). -/
def State.loadRegs (s : State nr rw pw iw nk) (bytes : List Byte) : State nr rw pw iw nk :=
  { s with v := Vector.ofFn fun k : Fin nr => ((bytes[k.val]?).map (·.setWidth rw)).getD s.v[k.val] }

/-- The values of V0 to Vx in order, as the bytes memory holds (R214). -/
def State.regsUpTo (s : State nr rw pw iw nk) (x : Fin nr) : List Byte :=
  (s.v.toList.take (blockLength x)).map (·.setWidth 8)

/-! ## Fault entry -/

/-- The cause code of R300. -/
def FaultCode.number : FaultCode → Nat
  | .decodeError => 1
  | .stackUnderflow => 2
  | .outOfBounds => 3
  | .stackOverflow => 4

/-- Fault entry (R303): none of the step's writes, and `Status` becomes `faulted` with the record of R301, whose `pc` is the
value at the start of the step. `s` is the state before the step's writes. -/
def State.enterFault (s : State nr rw pw iw nk) (code : FaultCode) (op : Option Word) (addr : Option Nat) : State nr rw pw iw nk :=
  { s with status := .faulted ⟨code, s.pc, op, addr⟩ }

/-- `raise OutOfBounds(addr)` by the instruction of opcode `op` (R300, R301). -/
def raiseOutOfBounds (op : Word) (addr : Nat) (s : State nr rw pw iw nk) : Result nr rw pw iw nk :=
  .next (s.enterFault .outOfBounds (some op) (some addr))

/-! ## Call stack -/

/-- `Push(v)`: append as the new top; `none` when a finite capacity is reached (R144). -/
def State.push (s : State nr rw pw iw nk) (a : BitVec pw) : Option (State nr rw pw iw nk) :=
  if s.params.stackCapacity = some s.stack.length then none else some { s with stack := s.stack ++ [a] }

/-- `Pop()`: the top and the rest; `none` when the stack is empty (R145). -/
def State.pop (s : State nr rw pw iw nk) : Option (BitVec pw × State nr rw pw iw nk) :=
  match s.stack.getLast? with
  | none => none
  | some a => some (a, { s with stack := s.stack.dropLast })

/-! ## Memory -/

/-- What an address that memory does not list reads as: the reset contents, the glyphs from 0x000 on and 0x00 elsewhere
(R45, R74, R75). -/
def unlistedByte (p : Params) (a : Nat) : Byte := p.glyphs.getD a 0

/-- Memory's canonical form: addresses strictly rising, all legal (R70), and no entry equal to what its address reads as
unlisted. -/
abbrev Memory.wf (m : Memory) (p : Params) : Prop :=
  m.Pairwise (fun c d => c.1 < d.1) ∧ ∀ c ∈ m, c.1 < p.memSize ∧ c.2 ≠ unlistedByte p c.1

/-- The byte at an address. -/
def Memory.read (m : Memory) (p : Params) (a : Nat) : Byte :=
  match m with
  | [] => unlistedByte p a
  | (k, b) :: m => if k = a then b else Memory.read m p a

/-- The byte of the machine's memory at an address. -/
def State.byteAt (s : State nr rw pw iw nk) (a : Nat) : Byte := s.mem.read s.params a

/-- Memory with no entry at an address: the address reads as at reset. -/
def Memory.dropAt (m : Memory) (a : Nat) : Memory := m.filter fun c => c.1 ≠ a

/-- Memory with an entry put at its place by address. -/
def Memory.putAt : Memory → Nat → Byte → Memory
  | [], a, b => [(a, b)]
  | (k, c) :: m, a, b => if a < k then (a, b) :: (k, c) :: m else (k, c) :: Memory.putAt m a b

/-- Writing one byte, keeping the canonical form: the byte an unlisted address reads as takes the entry out. -/
def Memory.write (m : Memory) (p : Params) (a : Nat) (b : Byte) : Memory :=
  if b = unlistedByte p a then m.dropAt a else (m.dropAt a).putAt a b

/-- Bytes written verbatim to ascending addresses. -/
def Memory.writeAll (m : Memory) (p : Params) (a : Nat) : List Byte → Memory
  | [] => m
  | b :: bs => Memory.writeAll (m.write p a b) p (a + 1) bs

/-- `MemRead(addr, 1)`: the byte, or the out-of-bounds address (R71). -/
def State.memRead (s : State nr rw pw iw nk) (a : Nat) : Except Nat Byte :=
  if a < s.params.memSize then .ok (s.byteAt a) else .error a

/-- `MemWrite(addr, 1, b)`, or the out-of-bounds address (R72). -/
def State.memWrite (s : State nr rw pw iw nk) (a : Nat) (b : Byte) : Except Nat (State nr rw pw iw nk) :=
  if a < s.params.memSize then .ok { s with mem := s.mem.write s.params a b } else .error a

/-- `n` reads at ascending addresses from `a`; the first failing check wins (R88, R302). -/
def State.memReads (s : State nr rw pw iw nk) (a : Nat) : Nat → Except Nat (List Byte)
  | 0 => .ok []
  | n + 1 =>
    match s.memRead a with
    | .error e => .error e
    | .ok b =>
      match s.memReads (a + 1) n with
      | .error e => .error e
      | .ok bs => .ok (b :: bs)

/-- Writes at ascending addresses from `a`; the first failing check wins (R88, R302). -/
def State.memWrites (s : State nr rw pw iw nk) (a : Nat) : List Byte → Except Nat (State nr rw pw iw nk)
  | [] => .ok s
  | b :: bs =>
    match s.memWrite a b with
    | .error e => .error e
    | .ok t => t.memWrites (a + 1) bs

/-- Fetch: the opcode at `pc`, `pc + 1` on naturals, big-endian, or the first out-of-bounds address (R141, R77, R73). -/
def State.fetch (s : State nr rw pw iw nk) : Except Nat Word :=
  match s.memRead s.pc.toNat with
  | .error e => .error e
  | .ok hi =>
    match s.memRead (s.pc.toNat + 1) with
    | .error e => .error e
    | .ok lo => .ok (opcodeOfBytes hi lo)

/-! ## Display -/

/-- The buffer index of the pixel at column `px`, row `py`, both reduced into the grid (R241, R242). -/
def pixelIndex (p : Params) (px py : Nat) : Nat := py % p.displayH * p.displayW + px % p.displayW

/-- The grid has one entry for each pixel (R240). -/
abbrev Display.wf (d : Display) (p : Params) : Prop := d.length = p.displayW * p.displayH

/-- The pixel at column `px`, row `py`, coordinates wrapping (R240, R241, R242). -/
def Display.pixel (d : Display) (p : Params) (px py : Nat) : Bool := d.getD (pixelIndex p px py) false

/-- The pixel of the machine's display at column `px`, row `py`. -/
def State.pixel (s : State nr rw pw iw nk) (px py : Nat) : Bool := s.disp.pixel s.params px py

/-- One pixel written, coordinates wrapping (R242). -/
def Display.setPixel (d : Display) (p : Params) (px py : Nat) (b : Bool) : Display := d.set (pixelIndex p px py) b

/-- `DispClear()` (R243). -/
def Display.clear (p : Params) : Display := List.replicate (p.displayW * p.displayH) false

/-- One column of `DispDrawRow`: a 1 bit inverts its pixel and collides when the pixel was set; a 0 bit does nothing (R244). -/
def Display.drawBit (d : Display) (p : Params) (bit : Bool) (px py : Nat) : Display × Bool :=
  if bit then (d.setPixel p px py (!d.pixel p px py), d.pixel p px py) else (d, false)

/-- The columns `c, c+1, …` of `DispDrawRow`, most significant bit first, with the collisions so far gathered (R244). -/
def Display.drawBits (d : Display) (p : Params) (b : Byte) (x y : Nat) : List Nat → Display × Bool
  | [] => (d, false)
  | c :: cs =>
    let one := d.drawBit p (b.getMsbD c) (x + c) y
    let rest := Display.drawBits one.1 p b x y cs
    (rest.1, one.2 || rest.2)

/-- `DispDrawRow(b, x, y)`: one row of 8 columns; whether a set pixel was unset (R244). -/
def Display.drawRow (d : Display) (p : Params) (b : Byte) (x y : Nat) : Display × Bool :=
  d.drawBits p b x y [0, 1, 2, 3, 4, 5, 6, 7]

/-- The rows of a sprite in order, one below the other from row `y`; whether any of them collided (R247). -/
def Display.drawSprite (d : Display) (p : Params) (x y : Nat) : List Byte → Display × Bool
  | [] => (d, false)
  | b :: bs =>
    let one := d.drawRow p b x y
    let rest := Display.drawSprite one.1 p x (y + 1) bs
    (rest.1, one.2 || rest.2)

/-! ## Keyboard -/

/-- `IsPressed(k)`: the byte equals the recorded key; false for 16 and above (R328; conflict C1). -/
def State.isPressed (s : State nr rw pw iw nk) (b : BitVec rw) : Bool :=
  match s.key with
  | none => false
  | some k => k.val == b.toNat

/-- `V[x] <- key`, the wait ended and `pc` advanced: what a key does to a pending Fx0A (R272). -/
def State.takeKey (s : State nr rw pw iw nk) (x : Fin nr) (k : Fin nk) : State nr rw pw iw nk :=
  { s.setV x (BitVec.ofNat rw k.val) with waitX := none }.advance

/-- `KeyWaitPoll(x)` (R272): a pressed key, as a level, ends the wait; otherwise the wait goes on with `pc` unchanged. -/
def State.keyWaitPoll (s : State nr rw pw iw nk) (x : Fin nr) : State nr rw pw iw nk :=
  match s.key with
  | some k => s.takeKey x k
  | none => { s with waitX := some x }

/-! ## Timer -/

/-- Whole ticks since the timer was set: floor of elapsed milliseconds by `TICK_MS`, 0 when the clock is behind (R321). -/
def State.elapsedTicks (s : State nr rw pw iw nk) : Nat := (s.now - s.timerInstant) / s.params.tickMs

/-- `TimerObserved(now)`: `max(0, TimerValue - ticks)` (R321). -/
def State.timerObserved (s : State nr rw pw iw nk) : Byte := BitVec.ofNat 8 (s.timerValue.toNat - s.elapsedTicks)

/-- `TimerSet(b, now)` (R322). -/
def State.timerSet (s : State nr rw pw iw nk) (b : Byte) : State nr rw pw iw nk := { s with timerValue := b, timerInstant := s.now }

end Sys2Proof.Machine
end

