-- ==== Sys2Proof/Machine/Alu.lean ====
section
/-! DEFINITION. Register arithmetic, logic, shifts and the random byte (spec/41_alu.md R170 to R184). -/

namespace Sys2Proof.Machine

variable {nr rw pw iw nk : Nat}

/-- A result without a flag: `V[x] <- r`, then advance. -/
def writeResult (x : Fin nr) (r : BitVec rw) (s : State nr rw pw iw nk) : State nr rw pw iw nk := (s.setV x r).advance

/-- Result first, flag second (R170, for 8xy4, 8xy5, 8xy7): with `x` = F the flag stays. -/
def writeResultThenFlag [NeZero nr] (x : Fin nr) (r f : BitVec rw) (s : State nr rw pw iw nk) : State nr rw pw iw nk := ((s.setV x r).setV vF f).advance

/-- Flag first, then the shift of `V[x]` as the flag write left it (R170, for 8xy6 and 8xyE). -/
def writeFlagThenShift [NeZero nr] (x : Fin nr) (f : BitVec rw) (shift : BitVec rw → BitVec rw) (s : State nr rw pw iw nk) : State nr rw pw iw nk :=
  let t := s.setV vF f
  (t.setV x (shift (t.getV x))).advance

/-- 6xnn (R172). -/
def execLdImm (x : Fin nr) (nn : Byte) (s : State nr rw pw iw nk) : Result nr rw pw iw nk := .next (writeResult x (nn.setWidth rw) s)

/-- 7xnn (R173): wraps modulo 256, no flag. -/
def execAddImm (x : Fin nr) (nn : Byte) (s : State nr rw pw iw nk) : Result nr rw pw iw nk := .next (writeResult x (s.getV x + nn.setWidth rw) s)

/-- 8xy0 (R174). -/
def execLdReg (x y : Fin nr) (s : State nr rw pw iw nk) : Result nr rw pw iw nk := .next (writeResult x (s.getV y) s)

/-- 8xy1 (R175). -/
def execOrReg (x y : Fin nr) (s : State nr rw pw iw nk) : Result nr rw pw iw nk := .next (writeResult x (s.getV x ||| s.getV y) s)

/-- 8xy2 (R176). -/
def execAndReg (x y : Fin nr) (s : State nr rw pw iw nk) : Result nr rw pw iw nk := .next (writeResult x (s.getV x &&& s.getV y) s)

/-- 8xy3 (R177). -/
def execXorReg (x y : Fin nr) (s : State nr rw pw iw nk) : Result nr rw pw iw nk := .next (writeResult x (s.getV x ^^^ s.getV y) s)

/-- 8xy4 (R178). -/
def execAddReg [NeZero nr] (x y : Fin nr) (s : State nr rw pw iw nk) : Result nr rw pw iw nk :=
  .next (writeResultThenFlag x (s.getV x + s.getV y) (carryFlag (s.getV x) (s.getV y)) s)

/-- 8xy5 (R179). -/
def execSub [NeZero nr] (x y : Fin nr) (s : State nr rw pw iw nk) : Result nr rw pw iw nk :=
  .next (writeResultThenFlag x (s.getV x - s.getV y) (notBorrowFlag (s.getV x) (s.getV y)) s)

/-- 8xy6 (R180): Vy is neither read nor written. -/
def execShr [NeZero nr] (x _y : Fin nr) (s : State nr rw pw iw nk) : Result nr rw pw iw nk :=
  .next (writeFlagThenShift x (shiftRightFlag (s.getV x)) (fun b => b >>> 1) s)

/-- 8xy7 (R181): `Vy - Vx`. -/
def execSubn [NeZero nr] (x y : Fin nr) (s : State nr rw pw iw nk) : Result nr rw pw iw nk :=
  .next (writeResultThenFlag x (s.getV y - s.getV x) (notBorrowFlag (s.getV y) (s.getV x)) s)

/-- 8xyE (R182): Vy is neither read nor written. -/
def execShl [NeZero nr] (x _y : Fin nr) (s : State nr rw pw iw nk) : Result nr rw pw iw nk :=
  .next (writeFlagThenShift x (shiftLeftFlag (s.getV x)) (fun b => b <<< 1) s)

/-- Cxnn (R184): the step's random byte, a free value (R183; log 1), masked. -/
def execRnd (x : Fin nr) (nn : Byte) (s : State nr rw pw iw nk) : Result nr rw pw iw nk := .next (writeResult x ((s.rand &&& nn).setWidth rw) s)

end Sys2Proof.Machine
end

