-- ==== Sys2Proof/Machine/ControlFlow.lean ====
section
/-! DEFINITION. Control transfer (spec/40_control_flow.md R146 to R153). -/

namespace Sys2Proof.Machine

variable {nr rw pw iw nk : Nat}

/-- 00EE (R146): `pc <- Pop()`; an empty stack raises StackUnderflow. -/
def execRet (s : State nr rw pw iw nk) : Result nr rw pw iw nk :=
  match s.pop with
  | none => .next (s.enterFault .stackUnderflow (some 0x00EE) none)
  | some (a, t) => .next (t.setPc a)

/-- 1nnn (R147). -/
def execJp (nnn : Addr12) (s : State nr rw pw iw nk) : Result nr rw pw iw nk := .next (s.setPc (addrWord nnn))

/-- 2nnn (R148): push the address after the call, then jump; a full stack raises StackOverflow. -/
def execCall (nnn : Addr12) (s : State nr rw pw iw nk) : Result nr rw pw iw nk :=
  match s.push (s.pc + 2) with
  | none => .next (s.enterFault .stackOverflow (some (packNNN 0x2 nnn)) none)
  | some t => .next (t.setPc (addrWord nnn))

/-- 3xnn (R149). -/
def execSeImm (x : Fin nr) (nn : Byte) (s : State nr rw pw iw nk) : Result nr rw pw iw nk := .next (s.skipIf (s.getV x == nn.setWidth rw))

/-- 4xnn (R150). -/
def execSneImm (x : Fin nr) (nn : Byte) (s : State nr rw pw iw nk) : Result nr rw pw iw nk := .next (s.skipIf (s.getV x != nn.setWidth rw))

/-- 5xy0 (R151). -/
def execSeReg (x y : Fin nr) (s : State nr rw pw iw nk) : Result nr rw pw iw nk := .next (s.skipIf (s.getV x == s.getV y))

/-- 9xy0 (R152). -/
def execSneReg (x y : Fin nr) (s : State nr rw pw iw nk) : Result nr rw pw iw nk := .next (s.skipIf (s.getV x != s.getV y))

/-- Bnnn (R153): the target is set, not added to `pc` (conflict C2); the register is V0 always. -/
def execJpV0 [NeZero nr] (nnn : Addr12) (s : State nr rw pw iw nk) : Result nr rw pw iw nk := .next (s.setPc (byteWord (s.getV v0) + addrWord nnn))

end Sys2Proof.Machine
end

