-- ==== Sys2Proof/Machine/DisplayDraw.lean ====
section
/-! DEFINITION. The display instructions (spec/43_display.md R246, R247). -/

namespace Sys2Proof.Machine

variable {nr rw pw iw nk : Nat}

/-- 00E0 (R246). -/
def execCls (s : State nr rw pw iw nk) : Result nr rw pw iw nk := .next { s with disp := Display.clear s.params }.advance

/-- Dxyn (R247): `n` sprite bytes from I drawn row by row at the old Vx, Vy; VF is the collision. The bytes are read before
the first row is drawn, which shows in nothing: no draw changes memory, and a fault undoes the draw (R303; log 16). -/
def execDrw [NeZero nr] (x y : Fin nr) (n : Nat) (s : State nr rw pw iw nk) : Result nr rw pw iw nk :=
  match s.memReads (indexAddr s 0) n with
  | .error a => raiseOutOfBounds (packXYN 0xD x y (BitVec.ofNat 4 n)) a s
  | .ok bytes =>
    let drawn := s.disp.drawSprite s.params (s.getV x).toNat (s.getV y).toNat bytes
    .next ({ s with disp := drawn.1 }.setV vF (collisionFlag drawn.2)).advance

end Sys2Proof.Machine
end

