-- ==== Sys2Proof/Machine/IndexMemory.lean ====
section
/-! DEFINITION. The index register and memory transfers (spec/42_index_memory.md R210 to R215). -/

namespace Sys2Proof.Machine

variable {nr rw pw iw nk : Nat}

/-- Annn (R210). -/
def execLdI (nnn : Addr12) (s : State nr rw pw iw nk) : Result nr rw pw iw nk := .next (s.setI (addrWord nnn)).advance

/-- Fx1E (R211): wraps modulo 2^16, no flag. -/
def execAddI (x : Fin nr) (s : State nr rw pw iw nk) : Result nr rw pw iw nk := .next (s.setI (s.i + byteWord (s.getV x))).advance

/-- Fx29 (R212). -/
def execLdF (x : Fin nr) (s : State nr rw pw iw nk) : Result nr rw pw iw nk := .next (s.setI (glyphAddr s.params (s.getV x))).advance

/-- Fx33 (R213): hundreds, tens, ones at I, I+1, I+2; I is not changed. -/
def execLdB (x : Fin nr) (s : State nr rw pw iw nk) : Result nr rw pw iw nk :=
  match s.memWrites (indexAddr s 0) (bcdDigits (s.getV x)) with
  | .error a => raiseOutOfBounds (packXNN 0xF x 0x33) a s
  | .ok t => .next t.advance

/-- Fx55 (R214): V0 to Vx at I, I+1, …; then I grows by `x + 1`. -/
def execLdMemRegs (x : Fin nr) (s : State nr rw pw iw nk) : Result nr rw pw iw nk :=
  match s.memWrites (indexAddr s 0) (s.regsUpTo x) with
  | .error a => raiseOutOfBounds (packXNN 0xF x 0x55) a s
  | .ok t => .next (t.setI (s.i + BitVec.ofNat iw (blockLength x))).advance

/-- Fx65 (R215): V0 to Vx from I, I+1, …; then I grows by `x + 1`. -/
def execLdRegsMem (x : Fin nr) (s : State nr rw pw iw nk) : Result nr rw pw iw nk :=
  match s.memReads (indexAddr s 0) (blockLength x) with
  | .error a => raiseOutOfBounds (packXNN 0xF x 0x65) a s
  | .ok bytes => .next ((s.loadRegs bytes).setI (s.i + BitVec.ofNat iw (blockLength x))).advance

end Sys2Proof.Machine
end

