-- ==== Sys2Proof/Machine/KeyboardTimer.lean ====
section
/-! DEFINITION. The keyboard and timer instructions (spec/44_keyboard_timer.md R270 to R275). -/

namespace Sys2Proof.Machine

variable {nr rw pw iw nk : Nat}

/-- Ex9E (R270). -/
def execSkp (x : Fin nr) (s : State nr rw pw iw nk) : Result nr rw pw iw nk := .next (s.skipIf (s.isPressed (s.getV x)))

/-- ExA1 (R271). -/
def execSknp (x : Fin nr) (s : State nr rw pw iw nk) : Result nr rw pw iw nk := .next (s.skipIf (!s.isPressed (s.getV x)))

/-- Fx0A (R272): the step that fetches it polls at once. -/
def execLdK (x : Fin nr) (s : State nr rw pw iw nk) : Result nr rw pw iw nk := .next (s.keyWaitPoll x)

/-- Fx07 (R273). -/
def execLdVxDt (x : Fin nr) (s : State nr rw pw iw nk) : Result nr rw pw iw nk := .next (s.setV x (s.timerObserved.setWidth rw)).advance

/-- Fx15 (R274). -/
def execLdDtVx (x : Fin nr) (s : State nr rw pw iw nk) : Result nr rw pw iw nk := .next (s.timerSet ((s.getV x).setWidth 8)).advance

/-- Fx18 (R275): the machine has no sound timer; only `pc` moves. -/
def execLdStVx (_x : Fin nr) (s : State nr rw pw iw nk) : Result nr rw pw iw nk := .next s.advance

end Sys2Proof.Machine
end

