-- ==== Sys2Proof/Config.lean ====
section
/-! DEFINITION. The free values: what the host supplies with each step and the spec leaves open (spec/41_alu.md R183,
spec/60_exceptions.md R323, R326, R340; notes/assumptions/1.md). They have no body, so nothing can be proved of their
values. The parameters of spec/00_scope.md R7 are in Sys2Proof/Machine/Params.lean. -/

namespace Sys2Proof

/-- What the host does to the keyboard before the `n`-th step: nothing (`none`), or `SetPressed k` with a key below
`nk`, `NKEYS` (R7, R326, R340). Free. -/
opaque Config.freeSetPressed (n : Nat) (nk : Nat := 16) : Option (Option (Fin nk))

/-- How many milliseconds the clock sample of the `n`-th step lies after the one before (R323: samples never decrease). Free. -/
opaque Config.freeElapsed : Nat → Nat

/-- The random byte supplied with the `n`-th step (R183: "a free draw, under no law"). Free. -/
opaque Config.freeRand : Nat → Byte

end Sys2Proof
end

