-- ==== Sys2Proof/Machine/Host.lean ====
section
/-! DEFINITION. The host's transactions other than the step itself (spec/00_scope.md R12, spec/60_exceptions.md R340):
`Reset(rom)`, `SetPressed(k)`, `Buffer()`, `Status()`, and the taking of one step's host input. -/

namespace Sys2Proof.Machine

variable {nr rw pw iw nk : Nat}

/-! ## Reset and ROM load -/

/-- A ROM fits when it has at most `MEM_SIZE - LOAD_ADDR` bytes (R353). -/
def romFits (p : Params) (rom : List Byte) : Bool := p.loadAddr + rom.length ≤ p.memSize

/-- `Reset(rom)` of a machine with the given parameters, R7's sizes unless others are given, at clock time `now` (R350, R352;
R7): the reset state with the ROM verbatim at `LOAD_ADDR` and `TimerInstant` = `now`; `none`, the launch refused, for a ROM that
does not fit (R353; log 6). -/
def State.boot (p : Params) (rom : List Byte) (now : Nat)
    (nr : Nat := 16) (rw : Nat := 8) (pw : Nat := 16) (iw : Nat := 16) (nk : Nat := 16) : Option (State nr rw pw iw nk) :=
  if romFits p rom then
    some { State.resetWith p nr rw pw iw nk with mem := Memory.writeAll [] p p.loadAddr rom, now := now, timerInstant := now }
  else none

/-! ## Keyboard, display and status as the host reaches them -/

/-- `SetPressed(k)` (R326). -/
def State.setPressed (s : State nr rw pw iw nk) (k : Option (Fin nk)) : State nr rw pw iw nk := { s with key := k }

/-- `Buffer()`: the pixels row-major, one byte 0 or 1 each (R241, R245). -/
def State.buffer (s : State nr rw pw iw nk) : List Byte := s.disp.map flagByte

/-- What `Status()` answers (R304). -/
inductive HostStatus (pw : Nat := 16) where
  | running
  | waitingForKey
  | faulted (report : FaultRecord pw)
deriving DecidableEq, Repr

/-- `Status()`: faulted, else waiting for a key, else running (R304). -/
def State.hostStatus (s : State nr rw pw iw nk) : HostStatus pw :=
  match s.status with
  | .faulted r => .faulted r
  | .running => if s.waitX = none then .running else .waitingForKey

/-! ## One step's input -/

/-- The free input of the `n`-th step (log 1). -/
def freeHostInput (nk n : Nat) : HostInput nk := ⟨Config.freeSetPressed n nk, Config.freeElapsed n, Config.freeRand n⟩

/-- The input of the coming step: the next fixed one, or a free one when none is fixed (log 1). -/
def State.nextHostInput (s : State nr rw pw iw nk) : HostInput nk :=
  match s.host with
  | [] => freeHostInput nk s.draws
  | h :: _ => h

/-- The host's moves before a step: its last `SetPressed` is applied (R84, R329), and the clock sample and random byte of
`Step(now, rand)` are latched (R12, R323, R183). -/
def State.takeHostInput (s : State nr rw pw iw nk) : State nr rw pw iw nk :=
  { s with
    key := s.nextHostInput.setPressed.getD s.key
    now := s.now + s.nextHostInput.elapsed
    rand := s.nextHostInput.rand
    host := s.host.tail
    draws := s.draws + 1 }

end Sys2Proof.Machine
end

