-- ==== Sys2Proof/Machine/Cycle.lean ====
section
/-! DEFINITION. The fetch, decode and execute cycle (spec/40_control_flow.md R140), on a state in which the step's inputs are
latched. -/

namespace Sys2Proof.Machine

/-- `Step(now, rand)` (R140) over an `Execute`, with `now` and `rand` already latched in the state: a faulted machine does nothing
(R303), a pending key wait polls (R272), otherwise fetch (R141), decode (R109) and execute. -/
def cycle {nr rw pw iw nk : Nat} (execute : Instr → State nr rw pw iw nk → Result nr rw pw iw nk)
    (s : State nr rw pw iw nk) : Result nr rw pw iw nk :=
  match s.status with
  | .faulted _ => .next s
  | .running =>
    match s.waitX with
    | some x => .next (s.keyWaitPoll x)
    | none =>
      match s.fetch with
      | .error a => .next (s.enterFault .outOfBounds none (some a))
      | .ok op =>
        match decode op with
        | .error _ => .next (s.enterFault .decodeError (some op) none)
        | .ok i => execute i s

/-- The cycle of this hardware. -/
def runStep (s : State) : Host.Outcome State Fault Refusal := cycle exec s

end Sys2Proof.Machine
end

