-- ==== Sys2Proof/Machine/Step.lean ====
section
/-! DEFINITION. One step (spec/40_control_flow.md R140), and how a test word is put where the next step fetches. -/

namespace Sys2Proof.Machine

/-- One step of the machine with its host: the host's moves before the step, then the step (R84, R140; log 1). -/
def step (s : State) : Host.Outcome State Fault Refusal := runStep s.takeHostInput

/-- The state with a table word stored, big-endian, at `pc` and `pc + 1`, and nothing pending or faulted that would keep the
next step from fetching it (log 12). It stands for the load of a program by `Reset(rom)` (log 5). -/
def State.withFetchWord (s : State) (nbits w : Nat) : State :=
  let bytes := bytesOfOpcode (tableWord nbits w)
  { s with
    mem := (s.mem.write s.params s.pc.toNat bytes.1).write s.params (s.pc.toNat + 1) bytes.2
    waitX := none
    status := .running }

end Sys2Proof.Machine
end

