-- ==== Sys2Proof/Machine/Sizes.lean ====
section
/-! DEFINITION. The machine with every parameter of spec/00_scope.md R7 an argument: the sizes `NREG`, `REG_W`, `PC_W`, `I_W`
and `NKEYS` as arguments of `State`, the other nine as `Params` within it. `exec` and `step`, whose types the host fixes, are this
machine at R7's sizes (log 7). -/

namespace Sys2Proof.Machine

/-- `Execute` at any sizes (R140): the same meanings as `exec`. Every 4-bit field has to name a register (R30, R101), so there
are at least 16 of them. -/
def execAt {nr rw pw iw nk : Nat} (h : 16 ≤ nr) (i : Instr) (s : State nr rw pw iw nk) : Result nr rw pw iw nk :=
  haveI : NeZero nr := ⟨by omega⟩
  let r : RegIdx → Fin nr := Fin.castLE h
  match i with
  | .cls => execCls s
  | .ret => execRet s
  | .jp nnn => execJp nnn s
  | .call nnn => execCall nnn s
  | .seImm x nn => execSeImm (r x) nn s
  | .sneImm x nn => execSneImm (r x) nn s
  | .seReg x y => execSeReg (r x) (r y) s
  | .ldImm x nn => execLdImm (r x) nn s
  | .addImm x nn => execAddImm (r x) nn s
  | .ldReg x y => execLdReg (r x) (r y) s
  | .orReg x y => execOrReg (r x) (r y) s
  | .andReg x y => execAndReg (r x) (r y) s
  | .xorReg x y => execXorReg (r x) (r y) s
  | .addReg x y => execAddReg (r x) (r y) s
  | .sub x y => execSub (r x) (r y) s
  | .shr x y => execShr (r x) (r y) s
  | .subn x y => execSubn (r x) (r y) s
  | .shl x y => execShl (r x) (r y) s
  | .sneReg x y => execSneReg (r x) (r y) s
  | .ldI nnn => execLdI nnn s
  | .jpV0 nnn => execJpV0 nnn s
  | .rnd x nn => execRnd (r x) nn s
  | .drw x y n => execDrw (r x) (r y) n s
  | .skp x => execSkp (r x) s
  | .sknp x => execSknp (r x) s
  | .ldVxDt x => execLdVxDt (r x) s
  | .ldK x => execLdK (r x) s
  | .ldDtVx x => execLdDtVx (r x) s
  | .ldStVx x => execLdStVx (r x) s
  | .addI x => execAddI (r x) s
  | .ldF x => execLdF (r x) s
  | .ldB x => execLdB (r x) s
  | .ldMemRegs x => execLdMemRegs (r x) s
  | .ldRegsMem x => execLdRegsMem (r x) s

/-- One step at any sizes, with the host's moves before it (R84, R140). -/
def stepAt {nr rw pw iw nk : Nat} (h : 16 ≤ nr) (s : State nr rw pw iw nk) : Result nr rw pw iw nk :=
  cycle (execAt h) s.takeHostInput

end Sys2Proof.Machine
end

