-- ==== Sys2Proof/Safety.lean ====
section
/-! DEFINITION. The terms claims are stated in: the invariant of the machine, the pixels a sprite covers, and the tables of
the whole-machine rules (which register an instruction writes, which next pc it leaves, which instructions may fault). -/

namespace Sys2Proof

/-- The V registers an instruction writes (R32, column "writes"). -/
def Instr.writesReg (i : Instr) (k : RegIdx) : Bool :=
  match i with
  | .ldImm x _ | .addImm x _ | .rnd x _ => k == x
  | .ldReg x _ | .orReg x _ | .andReg x _ | .xorReg x _ => k == x
  | .addReg x _ | .sub x _ | .subn x _ | .shr x _ | .shl x _ => k == x || k == vF
  | .drw _ _ _ => k == vF
  | .ldVxDt x | .ldK x => k == x
  | .ldRegsMem x => decide (k ≤ x)
  | .cls | .ret | .jp _ | .call _ | .ldI _ | .jpV0 _ => false
  | .seImm _ _ | .sneImm _ _ | .seReg _ _ | .sneReg _ _ => false
  | .skp _ | .sknp _ | .ldDtVx _ | .ldStVx _ | .addI _ | .ldF _ | .ldB _ | .ldMemRegs _ => false

/-- The instructions that write I (R35, R32). -/
def Instr.writesI : Instr → Bool
  | .ldI _ | .addI _ | .ldF _ | .ldMemRegs _ | .ldRegsMem _ => true
  | .cls | .ret | .jp _ | .call _ | .jpV0 _ | .seImm _ _ | .sneImm _ _ | .seReg _ _ | .sneReg _ _ => false
  | .ldImm _ _ | .addImm _ _ | .rnd _ _ | .ldReg _ _ | .orReg _ _ | .andReg _ _ | .xorReg _ _ => false
  | .addReg _ _ | .sub _ _ | .subn _ _ | .shr _ _ | .shl _ _ | .drw _ _ _ => false
  | .skp _ | .sknp _ | .ldVxDt _ | .ldK _ | .ldDtVx _ | .ldStVx _ | .ldB _ => false

/-- The instructions that may fault with any parameters: 00EE, Dxyn, Fx33, Fx55, Fx65 (R300); 2nnn faults on a full finite
stack only. -/
def Instr.mayFault : Instr → Bool
  | .ret | .drw _ _ _ | .ldB _ | .ldMemRegs _ | .ldRegsMem _ => true
  | .cls | .jp _ | .call _ | .jpV0 _ | .seImm _ _ | .sneImm _ _ | .seReg _ _ | .sneReg _ _ => false
  | .ldImm _ _ | .addImm _ _ | .rnd _ _ | .ldReg _ _ | .orReg _ _ | .andReg _ _ | .xorReg _ _ => false
  | .addReg _ _ | .sub _ _ | .subn _ _ | .shr _ _ | .shl _ _ => false
  | .ldI _ | .addI _ | .ldF _ | .skp _ | .sknp _ | .ldVxDt _ | .ldK _ | .ldDtVx _ | .ldStVx _ => false

/-- The four classes of next pc (R142). -/
inductive PcClass where
  | advance
  | skip
  | set
  | hold
deriving DecidableEq, Repr

/-- The class of each instruction (R142). -/
def Instr.pcClass : Instr → PcClass
  | .cls | .ldImm _ _ | .addImm _ _ | .ldReg _ _ | .orReg _ _ | .andReg _ _ | .xorReg _ _ => .advance
  | .addReg _ _ | .sub _ _ | .shr _ _ | .subn _ _ | .shl _ _ => .advance
  | .ldI _ | .rnd _ _ | .drw _ _ _ | .ldVxDt _ | .ldDtVx _ | .ldStVx _ => .advance
  | .addI _ | .ldF _ | .ldB _ | .ldMemRegs _ | .ldRegsMem _ => .advance
  | .seImm _ _ | .sneImm _ _ | .seReg _ _ | .sneReg _ _ | .skp _ | .sknp _ => .skip
  | .ret | .jp _ | .call _ | .jpV0 _ => .set
  | .ldK _ => .hold

end Sys2Proof

namespace Sys2Proof.Machine

/-- The instruction that `pc` points at, if it can be fetched and is legal (R141, R109). -/
def State.instrAtPc (s : State) : Option Instr :=
  match s.fetch with
  | .error _ => none
  | .ok op =>
    match decode op with
    | .error _ => none
    | .ok i => some i

/-- What every step keeps. -/
structure MachineInv (s : State) : Prop where
  /-- The parameters are possible ones (R7). -/
  params : s.params.legal
  /-- Memory is in its canonical form. -/
  memory : s.mem.wf s.params
  /-- The display has one entry for each pixel (R240). -/
  display : s.disp.wf s.params
  /-- The timer was set no later than the current clock sample (R41, R323). -/
  clock : s.timerInstant ≤ s.now
  /-- `pc` is at most Bnnn's 0xFF + 0xFFF or a skip's 4 past the last fetchable address (R142, R143, R153). -/
  pcBound : s.pc.toNat ≤ max 0x10FE (s.params.memSize + 2)
  /-- Every return address follows a fetchable call (R148). -/
  stackBound : ∀ a ∈ s.stack, a.toNat ≤ s.params.memSize
  /-- A finite stack is never fuller than its capacity (R144). -/
  stackCapacity : ∀ c, s.params.stackCapacity = some c → s.stack.length ≤ c
  /-- A pending wait is that of the Fx0A at `pc` (R42, R272). -/
  waiting : ∀ x, s.waitX = some x → s.instrAtPc = some (.ldK x)
  /-- A fault record names the `pc` the machine stands at, and nothing is pending (R301, R303). -/
  faulted : ∀ r, s.status = .faulted r → r.pc = s.pc ∧ s.waitX = none

/-- Whether the sprite of `n` bytes at I, drawn at column Vx and row Vy, has a 1 bit at pixel (px, py): bit 7 - c of byte
`Mem[I + r]` for `px = (Vx + c) mod DISPLAY_W`, `py = (Vy + r) mod DISPLAY_H` (R242, R244, R247). -/
def spriteCovers (s : State) (x y : RegIdx) (n px py : Nat) : Bool :=
  (List.range n).any fun r => (List.range 8).any fun c =>
    (s.byteAt (indexAddr s r)).getMsbD c &&
      ((s.getV x).toNat + c) % s.params.displayW == px && ((s.getV y).toNat + r) % s.params.displayH == py

/-- A result with a change made to its next state: to say that a run does not depend on a part of the state. -/
def Result.mapNext (f : State → State) : Result → Result
  | .next t => .next (f t)
  | .fault r => .fault r
  | .refused r => .refused r

end Sys2Proof.Machine
end

