-- ==== Sys2Proof/Certificates/Slice0/Obligations.lean ====
section
/-! DEFINITION. The statements for the provers. Each is stated over every state, with the next state written as an update of
the old one, so that the frame is part of the statement. "Dk" is the spec's own decision k (spec/92_eei_decisions.md); "log n"
is notes/assumptions/n.md. -/

open Sys2Proof Sys2Proof.Machine

/-! ## Encoding -/

/-- The spec's decode examples: legal words (spec/30_encoding.md R110; spec/95_test_vectors.md 2.1 to 2.3) decode to their
instruction, and illegal words (R105, R110; 2.1) are rejected. The names of the rejections are the model's own, by group of
R105: the spec knows one DecodeError (log 17, a DESIGN CHOICE). -/
def Obligations.SpecWordsDecode : Prop :=
  decode 0x00E0 = .ok .cls ∧ decode 0x00EE = .ok .ret ∧ decode 0x1ABC = .ok (.jp 0xABC) ∧
  decode 0x5120 = .ok (.seReg 1 2) ∧ decode 0xD12F = .ok (.drw 1 2 15) ∧ decode 0x8AB6 = .ok (.shr 0xA 0xB) ∧
  decode 0xE1A1 = .ok (.sknp 1) ∧ decode 0xFF65 = .ok (.ldRegsMem 0xF) ∧ decode 0x602A = .ok (.ldImm 0 0x2A) ∧
  decode 0x5121 = .error .illegalGroup5 ∧ decode 0x0123 = .error .illegalGroup0 ∧ decode 0x8008 = .error .illegalGroup8 ∧
  decode 0x9001 = .error .illegalGroup9 ∧ decode 0xE09F = .error .illegalGroupE ∧ decode 0xFF75 = .error .illegalGroupF

/-- Decoding the opcode of a well-formed instruction gives the instruction, whatever its fields (R101, R104). -/
def Obligations.DecodeOfEncode : Prop :=
  ∀ i : Instr, i.wellFormed = true → decode (encode i) = .ok i

/-- An opcode that decodes is the opcode of the instruction it decodes to, and that instruction is well formed: no bit of the
opcode is lost, the ignored `y` of 8xy6 and 8xyE included (R101, R106, R110). -/
def Obligations.EncodeOfDecode : Prop :=
  ∀ (op : Word) (i : Instr), decode op = .ok i → encode i = op ∧ i.wellFormed = true

/-- The decoder rejects exactly the opcodes that match no row of the opcode map (R104, R105). -/
def Obligations.RejectedOpcodesMatchNoRow : Prop :=
  ∀ op : Word, (∃ e, decode op = .error e) ↔ ∀ r ∈ opcodeTable, r.selects op = false

/-- An opcode that decodes selects one row of the opcode map, the row of the instruction it decodes to (R104). -/
def Obligations.DecodedOpcodeSelectsOneRow : Prop :=
  ∀ (op : Word) (i : Instr), decode op = .ok i → ∀ r ∈ opcodeTable, (r.selects op = true ↔ r = i.row)

/-! ## The step -/

/-- A running machine that does not wait executes the instruction its `pc` points at, on the state with the host's moves made:
the last `SetPressed` applied, the clock sample and the random byte latched (R140; that inputs stand in State is log 1). -/
def Obligations.StepRunsDecodedInstruction : Prop :=
  ∀ (s : State) (op : Word) (i : Instr), s.status = .running → s.waitX = none → s.fetch = .ok op → decode op = .ok i →
    step s = exec i { s with
      key := s.nextHostInput.setPressed.getD s.key
      now := s.now + s.nextHostInput.elapsed
      rand := s.nextHostInput.rand
      host := s.host.tail
      draws := s.draws + 1 }

/-- Where an input comes from: the next listed one, else a free one that nothing constrains; samples of the clock never go
back (R183, R323; log 1 and log 2 say that this form is the model's choice). -/
def Obligations.HostInputIsListedOrFree : Prop :=
  (∀ (s : State) (h : HostInput) (hs : List HostInput), s.host = h :: hs →
    step s = runStep { s with
      key := h.setPressed.getD s.key, now := s.now + h.elapsed, rand := h.rand, host := hs, draws := s.draws + 1 }) ∧
  (∀ s : State, s.host = [] →
    step s = runStep { s with
      key := (Config.freeSetPressed s.draws).getD s.key
      now := s.now + Config.freeElapsed s.draws
      rand := Config.freeRand s.draws
      host := []
      draws := s.draws + 1 })

/-- Fetch reads `pc` and `pc + 1`, the lower address in bits 15 to 8; an address at or above `MEM_SIZE` raises OutOfBounds with
`pc` and the address recorded and no opcode, and nothing else changes (R141, R301; the form of the record is D26). -/
def Obligations.FetchIsBigEndianOrFaults : Prop :=
  (∀ s : State, s.pc.toNat + 1 < s.params.memSize →
    s.fetch = .ok (s.byteAt s.pc.toNat ++ s.byteAt (s.pc.toNat + 1))) ∧
  (∀ s : State, s.status = .running → s.waitX = none → s.params.memSize ≤ s.pc.toNat + 1 →
    runStep s = .next { s with status := .faulted ⟨.outOfBounds, s.pc, none, some (max s.pc.toNat s.params.memSize)⟩ })

/-- Every opcode that matches no row of the opcode map raises DecodeError with `pc` and the opcode, and nothing else happens
(R105; the form of the record is R301, D26). -/
def Obligations.IllegalOpcodeRaisesDecodeError : Prop :=
  ∀ (s : State) (op : Word), s.status = .running → s.waitX = none → s.fetch = .ok op →
    (∀ r ∈ opcodeTable, r.selects op = false) →
    runStep s = .next { s with status := .faulted ⟨.decodeError, s.pc, some op, none⟩ }

/-- Once faulted, a step changes nothing but what the host itself changes: the key and the inputs (R43, R303: D16; log 11). -/
def Obligations.FaultedMachineStaysAsItIs : Prop :=
  ∀ (s : State) (r : FaultRecord), s.status = .faulted r →
    ∃ t, step s = .next t ∧
      t = { s with key := t.key, now := t.now, rand := t.rand, host := t.host, draws := t.draws }

/-- The machine always has a next state: the decoder is total, every instruction has a meaning, and faults are states
(R109, R140, R303; that faults are next states is log 4). -/
def Obligations.EveryStepAnswersNext : Prop :=
  ∀ s : State, ∃ t, step s = .next t

/-- A pending key wait polls and does not fetch: with no key nothing changes, with a key it is loaded and the wait ends
(R272, R337). -/
def Obligations.KeyWaitPolls : Prop :=
  ∀ (s : State) (x : RegIdx), s.status = .running → s.waitX = some x →
    (s.key = none → runStep s = .next s) ∧
    (∀ k, s.key = some k →
      runStep s = .next { s with v := s.v.set x.val (BitVec.ofNat 8 k.val), waitX := none, pc := s.pc + 2 })

/-- Re-fetching Fx0A at every step instead of keeping `WaitX` gives the same result (R272, derived there; conflict C7). -/
def Obligations.KeyWaitEqualsRefetch : Prop :=
  ∀ (s : State) (x : RegIdx), MachineInv s → s.status = .running → s.waitX = some x →
    runStep s = runStep { s with waitX := none } ∧ runStep s = exec (.ldK x) s

/-- A jump to its own address leaves everything as it is (R354, the looping end). -/
def Obligations.SelfJumpChangesNothing : Prop :=
  ∀ (s : State) (nnn : Addr12), s.status = .running → s.waitX = none → s.instrAtPc = some (.jp nnn) →
    nnn.setWidth 16 = s.pc → runStep s = .next s

/-! ## Control transfer -/

/-- 00EE pops the top of the stack into `pc`, as it is; with an empty stack it raises StackUnderflow and nothing else happens
(R145, R146). -/
def Obligations.ReturnPopsOrUnderflows : Prop :=
  (∀ (s : State) (st : List Word) (a : Word), s.stack = st ++ [a] →
    exec .ret s = .next { s with stack := st, pc := a }) ∧
  (∀ s : State, s.stack = [] →
    exec .ret s = .next { s with status := .faulted ⟨.stackUnderflow, s.pc, some 0x00EE, none⟩ })

/-- 1nnn sets `pc` to nnn (R147). -/
def Obligations.JumpSetsPc : Prop :=
  ∀ (nnn : Addr12) (s : State), exec (.jp nnn) s = .next { s with pc := nnn.setWidth 16 }

/-- 2nnn pushes `pc + 2` and sets `pc` to nnn; on a stack full to a finite capacity it raises StackOverflow and nothing else
happens (R148, R144). This hardware's stack is unbounded, so there it always pushes (the spec's decision D8; log 7); the form of
the record is R301, D26. -/
def Obligations.CallPushesAndJumps : Prop :=
  ∀ (nnn : Addr12) (s : State),
    (s.params.stackCapacity ≠ some s.stack.length →
      exec (.call nnn) s = .next { s with stack := s.stack ++ [s.pc + 2], pc := nnn.setWidth 16 }) ∧
    (s.params.stackCapacity = some s.stack.length →
      exec (.call nnn) s = .next { s with
        status := .faulted ⟨.stackOverflow, s.pc, some (encode (.call nnn)), none⟩ })

/-- 2nnn followed by 00EE comes back to the instruction after the call with the stack as before, unless the stack was full to a
finite capacity (R144, R146, R148). -/
def Obligations.CallThenReturn : Prop :=
  ∀ (nnn : Addr12) (s : State), s.params.stackCapacity ≠ some s.stack.length →
    ∃ t, exec (.call nnn) s = .next t ∧ exec .ret t = .next { s with pc := s.pc + 2 }

/-- 3xnn and 4xnn skip on equal and on different (R149, R150). -/
def Obligations.SkipsOnImmediate : Prop :=
  ∀ (x : RegIdx) (nn : Byte) (s : State),
    exec (.seImm x nn) s = .next { s with pc := if s.getV x = nn then s.pc + 4 else s.pc + 2 } ∧
    exec (.sneImm x nn) s = .next { s with pc := if s.getV x ≠ nn then s.pc + 4 else s.pc + 2 }

/-- 5xy0 and 9xy0 skip on equal and on different registers (R151, R152). -/
def Obligations.SkipsOnRegisters : Prop :=
  ∀ (x y : RegIdx) (s : State),
    exec (.seReg x y) s = .next { s with pc := if s.getV x = s.getV y then s.pc + 4 else s.pc + 2 } ∧
    exec (.sneReg x y) s = .next { s with pc := if s.getV x ≠ s.getV y then s.pc + 4 else s.pc + 2 }

/-- Bnnn sets `pc` to V0 + nnn; the sum never wraps (R153). -/
def Obligations.JumpV0SetsPc : Prop :=
  ∀ (nnn : Addr12) (s : State), ∃ t, exec (.jpV0 nnn) s = .next t ∧ t = { s with pc := t.pc } ∧
    t.pc.toNat = (s.getV 0).toNat + nnn.toNat

/-! ## Register arithmetic -/

/-- 6xnn, 8xy0, 8xy1, 8xy2, 8xy3 write Vx and no flag (R172, R174 to R177). -/
def Obligations.LoadsAndLogic : Prop :=
  ∀ (x y : RegIdx) (nn : Byte) (s : State),
    exec (.ldImm x nn) s = .next { s with v := s.v.set x.val nn, pc := s.pc + 2 } ∧
    exec (.ldReg x y) s = .next { s with v := s.v.set x.val (s.getV y), pc := s.pc + 2 } ∧
    exec (.orReg x y) s = .next { s with v := s.v.set x.val (s.getV x ||| s.getV y), pc := s.pc + 2 } ∧
    exec (.andReg x y) s = .next { s with v := s.v.set x.val (s.getV x &&& s.getV y), pc := s.pc + 2 } ∧
    exec (.xorReg x y) s = .next { s with v := s.v.set x.val (s.getV x ^^^ s.getV y), pc := s.pc + 2 }

/-- 7xnn adds modulo 256 and leaves VF alone (R173). -/
def Obligations.AddImmediateWrapsWithoutFlag : Prop :=
  ∀ (x : RegIdx) (nn : Byte) (s : State), ∃ t, exec (.addImm x nn) s = .next t ∧
    t = { s with v := t.v, pc := s.pc + 2 } ∧
    (t.getV x).toNat = ((s.getV x).toNat + nn.toNat) % 256 ∧ (∀ k, k ≠ x → t.getV k = s.getV k) ∧
    (x ≠ 15 → t.getV 15 = s.getV 15)

/-- 8xy4: the sum modulo 256 in Vx, then the carry in VF (R178). With x = F the flag stays: that order is R170, the spec's
decision D13 (log 10). -/
def Obligations.AddRegistersWithCarry : Prop :=
  ∀ (x y : RegIdx) (s : State), ∃ t, exec (.addReg x y) s = .next t ∧ t = { s with v := t.v, pc := s.pc + 2 } ∧
    t.getV 15 = (if 255 < (s.getV x).toNat + (s.getV y).toNat then 1 else 0) ∧
    (x ≠ 15 → (t.getV x).toNat = ((s.getV x).toNat + (s.getV y).toNat) % 256) ∧
    (∀ k, k ≠ x → k ≠ 15 → t.getV k = s.getV k)

/-- 8xy5 and 8xy7: the difference modulo 256 in Vx, then the NOT-borrow flag in VF by unsigned comparison (R179, R181). With
x = F the flag stays: that order is R170, the spec's decision D13 (log 10). -/
def Obligations.SubtractionsWithNotBorrow : Prop :=
  ∀ (x y : RegIdx) (s : State),
    (∃ t, exec (.sub x y) s = .next t ∧ t = { s with v := t.v, pc := s.pc + 2 } ∧
      t.getV 15 = (if (s.getV y).toNat ≤ (s.getV x).toNat then 1 else 0) ∧
      (x ≠ 15 → (t.getV x).toNat = ((s.getV x).toNat + 256 - (s.getV y).toNat) % 256) ∧
      (∀ k, k ≠ x → k ≠ 15 → t.getV k = s.getV k)) ∧
    (∃ t, exec (.subn x y) s = .next t ∧ t = { s with v := t.v, pc := s.pc + 2 } ∧
      t.getV 15 = (if (s.getV x).toNat ≤ (s.getV y).toNat then 1 else 0) ∧
      (x ≠ 15 → (t.getV x).toNat = ((s.getV y).toNat + 256 - (s.getV x).toNat) % 256) ∧
      (∀ k, k ≠ x → k ≠ 15 → t.getV k = s.getV k))

/-- 8xy6 and 8xyE with x ≠ F: VF is the bit shifted out and Vx the value shifted by one; Vy is not read (R180, R182, R106). -/
def Obligations.ShiftsByOne : Prop :=
  ∀ (x y : RegIdx) (s : State), x ≠ 15 →
    (∃ t, exec (.shr x y) s = .next t ∧ t = { s with v := t.v, pc := s.pc + 2 } ∧
      (t.getV 15).toNat = (s.getV x).toNat % 2 ∧ (t.getV x).toNat = (s.getV x).toNat / 2 ∧
      (∀ k, k ≠ x → k ≠ 15 → t.getV k = s.getV k)) ∧
    (∃ t, exec (.shl x y) s = .next t ∧ t = { s with v := t.v, pc := s.pc + 2 } ∧
      (t.getV 15).toNat = (s.getV x).toNat / 128 ∧ (t.getV x).toNat = (s.getV x).toNat * 2 % 256 ∧
      (∀ k, k ≠ x → k ≠ 15 → t.getV k = s.getV k))

/-- 8Fy6 and 8FyE: the flag is written first and shifted itself, so VF ends as 0, and as 0 or 2 (R170, R180, R182: the
spec's decision D13; log 10). -/
def Obligations.ShiftsOfTheFlagRegister : Prop :=
  ∀ (y : RegIdx) (s : State),
    exec (.shr 15 y) s = .next { s with v := s.v.set 15 0, pc := s.pc + 2 } ∧
    exec (.shl 15 y) s
      = .next { s with v := s.v.set 15 (if 128 ≤ (s.getV 15).toNat then 2 else 0), pc := s.pc + 2 }

/-- Cxnn writes the step's random byte masked by nn: a bit clear in nn is clear in the result (R184), for every random byte. -/
def Obligations.RandomByteMasked : Prop :=
  ∀ (x : RegIdx) (nn : Byte) (s : State),
    exec (.rnd x nn) s = .next { s with v := s.v.set x.val (s.rand &&& nn), pc := s.pc + 2 }

/-! ## Index register and memory -/

/-- Annn and Fx29 set I: to nnn (R210), and to `GLYPH_BYTES` times the whole byte Vx, which with this hardware's five bytes never
wraps (R212). That with any other `GLYPH_BYTES` (R7) the product is taken modulo 2^16, the width law of R33, is the model's
reading (log 7). -/
def Obligations.IndexLoads : Prop :=
  (∀ (nnn : Addr12) (s : State), exec (.ldI nnn) s = .next { s with i := nnn.setWidth 16, pc := s.pc + 2 }) ∧
  (∀ (x : RegIdx) (s : State), ∃ t, exec (.ldF x) s = .next t ∧ t = { s with i := t.i, pc := s.pc + 2 } ∧
    t.i.toNat = (s.getV x).toNat * s.params.glyphBytes % 65536 ∧
    (s.params.glyphBytes = 5 → t.i.toNat = (s.getV x).toNat * 5))

/-- Fx1E adds Vx to I modulo 2^16 and writes no flag (R211; that VF is not written is the spec's decision D14). -/
def Obligations.IndexAddWraps : Prop :=
  ∀ (x : RegIdx) (s : State), ∃ t, exec (.addI x) s = .next t ∧ t = { s with i := t.i, pc := s.pc + 2 } ∧
    t.i.toNat = (s.i.toNat + (s.getV x).toNat) % 65536

/-- Fx33 stores hundreds, tens and ones at I, I+1, I+2 and nothing else, or raises OutOfBounds at the first of them at or
above `MEM_SIZE` with no effect (R213; the form of the record is R301, D26). -/
def Obligations.DecimalDigitsStored : Prop :=
  ∀ (x : RegIdx) (s : State),
    (s.i.toNat + 2 < s.params.memSize → ∃ t, exec (.ldB x) s = .next t ∧ t = { s with mem := t.mem, pc := s.pc + 2 } ∧
      (t.byteAt (indexAddr s 0)).toNat = (s.getV x).toNat / 100 ∧
      (t.byteAt (indexAddr s 1)).toNat = (s.getV x).toNat / 10 % 10 ∧
      (t.byteAt (indexAddr s 2)).toNat = (s.getV x).toNat % 10 ∧
      ∀ a, a ≠ indexAddr s 0 → a ≠ indexAddr s 1 → a ≠ indexAddr s 2 → t.byteAt a = s.byteAt a) ∧
    (s.params.memSize ≤ s.i.toNat + 2 →
      exec (.ldB x) s = .next { s with
        status := .faulted ⟨.outOfBounds, s.pc, some (encode (.ldB x)), some (max s.i.toNat s.params.memSize)⟩ })

/-- Fx55 stores V0 to Vx at I, I+1, … and nothing else, and adds x + 1 to I; or raises OutOfBounds at the lowest address at or
above `MEM_SIZE` with no effect, I included (R214; the form of the record is R301, D26). -/
def Obligations.RegistersStored : Prop :=
  ∀ (x : RegIdx) (s : State),
    (s.i.toNat + x.val < s.params.memSize → ∃ t, exec (.ldMemRegs x) s = .next t ∧
      t = { s with mem := t.mem, i := s.i + BitVec.ofNat 16 (x.val + 1), pc := s.pc + 2 } ∧
      (∀ k : RegIdx, k ≤ x → t.byteAt (indexAddr s k.val) = s.getV k) ∧
      ∀ a, a < indexAddr s 0 ∨ indexAddr s x.val < a → t.byteAt a = s.byteAt a) ∧
    (s.params.memSize ≤ s.i.toNat + x.val →
      exec (.ldMemRegs x) s = .next { s with
        status := .faulted ⟨.outOfBounds, s.pc, some (encode (.ldMemRegs x)), some (max s.i.toNat s.params.memSize)⟩ })

/-- Fx65 loads V0 to Vx from I, I+1, … and no other register, and adds x + 1 to I; or raises OutOfBounds at the lowest address
at or above `MEM_SIZE` with no effect (R215; the form of the record is R301, D26). -/
def Obligations.RegistersLoaded : Prop :=
  ∀ (x : RegIdx) (s : State),
    (s.i.toNat + x.val < s.params.memSize → ∃ t, exec (.ldRegsMem x) s = .next t ∧
      t = { s with v := t.v, i := s.i + BitVec.ofNat 16 (x.val + 1), pc := s.pc + 2 } ∧
      (∀ k : RegIdx, k ≤ x → t.getV k = s.byteAt (indexAddr s k.val)) ∧
      ∀ k : RegIdx, x < k → t.getV k = s.getV k) ∧
    (s.params.memSize ≤ s.i.toNat + x.val →
      exec (.ldRegsMem x) s = .next { s with
        status := .faulted ⟨.outOfBounds, s.pc, some (encode (.ldRegsMem x)), some (max s.i.toNat s.params.memSize)⟩ })

/-- Storing V0 to Vx and loading them back from the same base, into whatever registers, reproduces them and leaves the others;
I advances by x + 1 both times (R215, the round-trip law). -/
def Obligations.StoreThenLoadReproduces : Prop :=
  ∀ (x : RegIdx) (s : State) (w : Vector Byte 16), s.i.toNat + x.val < s.params.memSize →
    ∃ t u, exec (.ldMemRegs x) s = .next t ∧ exec (.ldRegsMem x) { t with i := s.i, v := w } = .next u ∧
      (∀ k : RegIdx, k ≤ x → u.getV k = s.getV k) ∧ (∀ k : RegIdx, x < k → u.getV k = w[k.val]) ∧
      t.i = s.i + BitVec.ofNat 16 (x.val + 1) ∧ u.i = t.i

/-- An instruction fetch sees every earlier store: after Fx55 the bytes it stored are fetched as opcodes, wherever `pc` comes to
stand among them (R83, R86). -/
def Obligations.FetchSeesStoredBytes : Prop :=
  ∀ (x k : RegIdx) (s t : State) (p : Word), s.i.toNat + x.val < s.params.memSize → exec (.ldMemRegs x) s = .next t →
    k < x → p.toNat = s.i.toNat + k.val →
    State.fetch { t with pc := p } = .ok (s.getV k ++ s.getV (k + 1))

/-- A write puts its byte, leaves every other and keeps memory canonical, and canonical memories that read alike are one:
equal memories are equal data (the model's own form of memory, log 9). -/
def Obligations.CanonicalMemoriesAreEqual : Prop :=
  (∀ (p : Params) (m : Memory) (a : Nat) (b : Byte), m.wf p → a < p.memSize →
    (m.write p a b).wf p ∧ ∀ c, (m.write p a b).read p c = if c = a then b else m.read p c) ∧
  (∀ (p : Params) (m m' : Memory), m.wf p → m'.wf p → (∀ a, m.read p a = m'.read p a) → m = m')

/-! ## Display -/

/-- 00E0 clears every pixel of the grid and writes no flag (R243, R246). -/
def Obligations.ClearDisplay : Prop :=
  ∀ s : State, ∃ t, exec .cls s = .next t ∧ t = { s with disp := t.disp, pc := s.pc + 2 } ∧
    t.disp.wf s.params ∧ ∀ px py, t.pixel px py = false

/-- Dxyn inverts exactly the pixels its sprite's 1 bits meet, coordinates wrapping, and sets VF to 1 exactly when one of them was
set, else to 0; or raises OutOfBounds at the lowest sprite address at or above `MEM_SIZE` with no effect, the display included
(R242, R244, R247; the form of the record is R301, D26). The pixels are stated for a display that is not smaller than a sprite,
as this hardware's 64 by 32 is (R7): on a smaller one a sprite would wrap onto itself. -/
def Obligations.DrawInvertsSpritePixels : Prop :=
  ∀ (x y : RegIdx) (n : Nat) (s : State), (Instr.drw x y n).wellFormed = true →
    (n = 0 ∨ s.i.toNat + n ≤ s.params.memSize → ∃ t, exec (.drw x y n) s = .next t ∧
      t = { s with disp := t.disp, v := s.v.set 15 (t.getV 15), pc := s.pc + 2 } ∧
      (t.getV 15 = 0 ∨ t.getV 15 = 1) ∧
      (s.params.legal → s.disp.wf s.params → 8 ≤ s.params.displayW → n ≤ s.params.displayH →
        (∀ px < s.params.displayW, ∀ py < s.params.displayH,
          t.pixel px py = (s.pixel px py ^^ spriteCovers s x y n px py)) ∧
        (t.getV 15 = 1 ↔ ∃ px < s.params.displayW, ∃ py < s.params.displayH,
          s.pixel px py = true ∧ spriteCovers s x y n px py = true))) ∧
    (n ≠ 0 → s.params.memSize < s.i.toNat + n →
      exec (.drw x y n) s = .next { s with
        status := .faulted ⟨.outOfBounds, s.pc, some (encode (.drw x y n)), some (max s.i.toNat s.params.memSize)⟩ })

/-- Drawing the same sprite twice at the same place restores the display; the second draw sets VF exactly when one of the sprite's
1 bits meets a pixel that was clear before both, so from a clear display exactly when the sprite has a 1 bit (R247;
spec/95_test_vectors.md S4). The coordinates are the same twice only if neither is VF; the
display is not smaller than a sprite. -/
def Obligations.DrawTwiceRestoresDisplay : Prop :=
  ∀ (x y : RegIdx) (n : Nat) (s : State), (Instr.drw x y n).wellFormed = true → x ≠ 15 → y ≠ 15 →
    s.params.legal → s.disp.wf s.params → 8 ≤ s.params.displayW → n ≤ s.params.displayH →
    (n = 0 ∨ s.i.toNat + n ≤ s.params.memSize) →
    ∃ t u, exec (.drw x y n) s = .next t ∧ exec (.drw x y n) t = .next u ∧ u.disp = s.disp ∧
      (u.getV 15 = 1 ↔ ∃ px < s.params.displayW, ∃ py < s.params.displayH,
        s.pixel px py = false ∧ spriteCovers s x y n px py = true) ∧
      (s.disp = Display.clear s.params →
        (u.getV 15 = 1 ↔ ∃ r < n, ∃ c < 8, (s.byteAt (indexAddr s r)).getMsbD c = true))

/-- The host's view: one byte per pixel, row-major, 1 where the pixel is set (R241, R245). -/
def Obligations.BufferIsRowMajor : Prop :=
  ∀ s : State, s.disp.wf s.params → s.buffer.length = s.params.displayW * s.params.displayH ∧
    ∀ px < s.params.displayW, ∀ py < s.params.displayH,
      s.buffer[py * s.params.displayW + px]? = some (if s.pixel px py then 1 else 0)

/-! ## Keyboard and timer -/

/-- Ex9E and ExA1 skip on the pressed key and otherwise; a byte of 16 or more names no key (R270, R271, R328). -/
def Obligations.SkipsOnKey : Prop :=
  ∀ (x : RegIdx) (s : State),
    (∀ k, s.key = some k → k.val = (s.getV x).toNat →
      exec (.skp x) s = .next { s with pc := s.pc + 4 } ∧ exec (.sknp x) s = .next { s with pc := s.pc + 2 }) ∧
    ((∀ k, s.key = some k → k.val ≠ (s.getV x).toNat) →
      exec (.skp x) s = .next { s with pc := s.pc + 2 } ∧ exec (.sknp x) s = .next { s with pc := s.pc + 4 }) ∧
    (16 ≤ (s.getV x).toNat →
      exec (.skp x) s = .next { s with pc := s.pc + 2 } ∧ exec (.sknp x) s = .next { s with pc := s.pc + 4 })

/-- Fx0A loads a pressed key at once, by its level; with no key it waits, `pc` unchanged (R272). -/
def Obligations.KeyLoadOrWait : Prop :=
  ∀ (x : RegIdx) (s : State),
    (∀ k, s.key = some k →
      exec (.ldK x) s = .next { s with v := s.v.set x.val (BitVec.ofNat 8 k.val), waitX := none, pc := s.pc + 2 }) ∧
    (s.key = none → exec (.ldK x) s = .next { s with waitX := some x })

/-- Fx15 stores Vx and the clock sample (R274, R322); Fx18 moves `pc` only (R275). -/
def Obligations.TimerSetAndNoSound : Prop :=
  ∀ (x : RegIdx) (s : State),
    exec (.ldDtVx x) s = .next { s with timerValue := s.getV x, timerInstant := s.now, pc := s.pc + 2 } ∧
    exec (.ldStVx x) s = .next { s with pc := s.pc + 2 }

/-- Fx07 loads the set value less the whole ticks of `TICK_MS` since, never below 0, which with this hardware's value are ticks
of 17 ms; a clock behind the set instant counts as no time (R273, R321; the period and the rounding are the spec's decisions D4
and D5). -/
def Obligations.TimerReadIsSetValueLessTicks : Prop :=
  ∀ (x : RegIdx) (s : State), ∃ t, exec (.ldVxDt x) s = .next t ∧ t = { s with v := t.v, pc := s.pc + 2 } ∧
    (∀ k, k ≠ x → t.getV k = s.getV k) ∧
    (s.timerInstant ≤ s.now → (t.getV x).toNat = s.timerValue.toNat - (s.now - s.timerInstant) / s.params.tickMs) ∧
    (s.now < s.timerInstant → t.getV x = s.timerValue)

/-- After Fx15 sets Vx, a read at any later sample gives the value less the ticks between; reads never grow with time, and are 0
from `TICK_MS` times the value on (R324). -/
def Obligations.TimerDecaysToZero : Prop :=
  ∀ (x y : RegIdx) (s : State) (n m : Nat), 0 < s.params.tickMs → s.now ≤ n → n ≤ m →
    ∃ t u w, exec (.ldDtVx x) s = .next t ∧ exec (.ldVxDt y) { t with now := n } = .next u ∧
      exec (.ldVxDt y) { t with now := m } = .next w ∧
      (u.getV y).toNat = (s.getV x).toNat - (n - s.now) / s.params.tickMs ∧ (w.getV y).toNat ≤ (u.getV y).toNat ∧
      (s.now + s.params.tickMs * (s.getV x).toNat ≤ n → u.getV y = 0)

/-! ## Whole-machine rules -/

/-- An instruction writes only the V registers its row of R32 names: VF by the flag instructions and the draw alone, unless it
is the destination (R31, R32; that nothing unnamed is written is D14). -/
def Obligations.OnlyNamedRegistersWritten : Prop :=
  ∀ (i : Instr) (s t : State) (k : RegIdx), exec i s = .next t → i.writesReg k = false → t.getV k = s.getV k

/-- I is written by Annn, Fx1E, Fx29, Fx55 and Fx65 only (R35). -/
def Obligations.IndexWrittenByFive : Prop :=
  ∀ (i : Instr) (s t : State), exec i s = .next t → i.writesI = false → t.i = s.i

/-- Memory is written by Fx33 and Fx55 only (R72), the call stack by 2nnn and 00EE only (R37), the display by 00E0 and Dxyn only
(R39), the timer by Fx15 only (R41), the wait by Fx0A only (R42), and the key by no instruction (R40). -/
def Obligations.EachUnitHasItsWriters : Prop :=
  ∀ (i : Instr) (s t : State), exec i s = .next t →
    ((∀ x, i ≠ .ldB x) → (∀ x, i ≠ .ldMemRegs x) → t.mem = s.mem) ∧
    ((∀ nnn, i ≠ .call nnn) → i ≠ .ret → t.stack = s.stack) ∧
    (i ≠ .cls → (∀ x y n, i ≠ .drw x y n) → t.disp = s.disp) ∧
    ((∀ x, i ≠ .ldDtVx x) → t.timerValue = s.timerValue ∧ t.timerInstant = s.timerInstant) ∧
    ((∀ x, i ≠ .ldK x) → t.waitX = s.waitX) ∧
    t.key = s.key

/-- Every instruction that does not fault leaves `pc` by its class: advance by 2; skip by 4 or advance by 2; set; or hold while no
key is pressed, then advance (R142). -/
def Obligations.NextPcByClass : Prop :=
  ∀ (i : Instr) (s t : State), s.status = .running → exec i s = .next t → t.status = .running →
    (i.pcClass = .advance → t.pc = s.pc + 2) ∧
    (i.pcClass = .skip → t.pc = s.pc + 4 ∨ t.pc = s.pc + 2) ∧
    (i.pcClass = .set → i = .ret ∧ s.stack.getLast? = some t.pc ∨ (∃ nnn, i = .jp nnn ∧ t.pc = addrWord nnn) ∨
      (∃ nnn, i = .call nnn ∧ t.pc = addrWord nnn) ∨
      (∃ nnn, i = .jpV0 nnn ∧ t.pc = byteWord (s.getV 0) + addrWord nnn)) ∧
    (i.pcClass = .hold → t.pc = if s.key = none then s.pc else s.pc + 2)

/-- A fault is precise: a step that raises one makes no other write, and its record holds `pc`, the opcode fetched, if any, and
the address for OutOfBounds, which lies at or above `MEM_SIZE` (R301, R303: the spec's decisions D16, D26; log 15). -/
def Obligations.FaultsArePrecise : Prop :=
  ∀ (s t : State) (r : FaultRecord), s.status = .running → runStep s = .next t → t.status = .faulted r →
    t = { s with status := .faulted r } ∧ r.pc = s.pc ∧
    (∀ op, r.op = some op ↔ s.fetch = .ok op) ∧
    (r.addr.isSome = true ↔ r.code = .outOfBounds) ∧ (∀ a, r.addr = some a → s.params.memSize ≤ a)

/-- Only 00EE, Dxyn, Fx33, Fx55 and Fx65 fault when executed, and 2nnn on a stack full to a finite capacity, which alone raises
StackOverflow; so with this hardware's unbounded stack only the five (R300, R144). -/
def Obligations.OnlyFiveInstructionsFault : Prop :=
  ∀ (i : Instr) (s t : State) (r : FaultRecord), s.status = .running → exec i s = .next t → t.status = .faulted r →
    (i.mayFault = true ∨ (∃ nnn, i = .call nnn) ∧ s.params.stackCapacity = some s.stack.length) ∧
    (r.code = .stackUnderflow ↔ i = .ret) ∧ (r.code = .stackOverflow ↔ ∃ nnn, i = .call nnn) ∧ r.code ≠ .decodeError

/-- The random byte is read by Cxnn only, the clock by Fx07 and Fx15 only, the key by Ex9E, ExA1 and Fx0A only: every other
instruction does the same whatever they are (R140, R40). -/
def Obligations.InputsReadOnlyWhereNamed : Prop :=
  ∀ (i : Instr) (s : State),
    (∀ r : Byte, (∀ x nn, i ≠ .rnd x nn) →
      exec i { s with rand := r } = Result.mapNext (fun t => { t with rand := r }) (exec i s)) ∧
    (∀ n : Nat, (∀ x, i ≠ .ldVxDt x) → (∀ x, i ≠ .ldDtVx x) →
      exec i { s with now := n } = Result.mapNext (fun t => { t with now := n }) (exec i s)) ∧
    (∀ k : Option Key, (∀ x, i ≠ .skp x) → (∀ x, i ≠ .sknp x) → (∀ x, i ≠ .ldK x) →
      exec i { s with key := k } = Result.mapNext (fun t => { t with key := k }) (exec i s))

/-- No instruction changes the host's inputs, and only a fault changes the status, which then is faulted at this `pc`
(R43, R44). -/
def Obligations.InstructionsKeepInputsAndStatus : Prop :=
  ∀ (i : Instr) (s t : State), exec i s = .next t →
    t.now = s.now ∧ t.rand = s.rand ∧ t.host = s.host ∧ t.draws = s.draws ∧
    (t.status = s.status ∨ ∃ r, t = { s with status := .faulted r } ∧ r.pc = s.pc ∧ r.op = some (encode i))

/-! ## Reset and the invariant -/

/-- The reset state of this hardware, field by field: the spec's fields (R45, with the 80 glyph bytes of R75; V, I, stack, key
and timer are the spec's decision D9, memory's D3 and D10), and the model's own (now, rand, host and draws, log 1; the reset
instant 0, log 3). The parameters are ParametersAreArguments. -/
def Obligations.ResetValues : Prop :=
  State.reset.pc = 0x200 ∧ (∀ k, State.reset.getV k = 0) ∧ State.reset.i = 0 ∧ State.reset.stack = [] ∧
  State.reset.disp.length = 64 * 32 ∧ (∀ px py, State.reset.pixel px py = false) ∧
  State.reset.key = none ∧ State.reset.timerValue = 0 ∧ State.reset.timerInstant = State.reset.now ∧
  State.reset.waitX = none ∧ State.reset.status = .running ∧
  (List.range 80).map State.reset.byteAt =
    [0xF0, 0x90, 0x90, 0x90, 0xF0, 0x20, 0x60, 0x20, 0x20, 0x70, 0xF0, 0x10, 0xF0, 0x80, 0xF0, 0xF0, 0x10, 0xF0, 0x10, 0xF0] ++
    [0x90, 0x90, 0xF0, 0x10, 0x10, 0xF0, 0x80, 0xF0, 0x10, 0xF0, 0xF0, 0x80, 0xF0, 0x90, 0xF0, 0xF0, 0x10, 0x20, 0x40, 0x40] ++
    [0xF0, 0x90, 0xF0, 0x90, 0xF0, 0xF0, 0x90, 0xF0, 0x10, 0xF0, 0xF0, 0x90, 0xF0, 0x90, 0x90, 0xE0, 0x90, 0xE0, 0x90, 0xE0] ++
    [0xF0, 0x80, 0x80, 0x80, 0xF0, 0xE0, 0x90, 0x90, 0x90, 0xE0, 0xF0, 0x80, 0xF0, 0x80, 0xF0, 0xF0, 0x80, 0xF0, 0x80, 0x80] ∧
  (∀ a, 0x50 ≤ a → State.reset.byteAt a = 0) ∧
  State.reset.now = 0 ∧ State.reset.rand = 0 ∧ State.reset.host = [] ∧ State.reset.draws = 0

/-- `Reset(rom)`, whatever the parameters, puts a ROM that fits verbatim at `LOAD_ADDR` and leaves every other byte and register
at its reset value, the timer set at the time of reset; a ROM that does not fit is not launched (R350, R352, R353; the refusal is
log 6). -/
def Obligations.ResetLoadsRom : Prop :=
  ∀ (p : Params) (rom : List Byte) (now : Nat),
    (p.loadAddr + rom.length ≤ p.memSize → ∃ s, State.boot p rom now = some s ∧
      s = { State.resetWith p with mem := s.mem, now := now, timerInstant := now } ∧ s.mem.wf p ∧
      (∀ (k : Nat) (h : k < rom.length), s.byteAt (p.loadAddr + k) = rom[k]) ∧
      (∀ a, a < p.loadAddr ∨ p.loadAddr + rom.length ≤ a → s.byteAt a = (State.resetWith p).byteAt a)) ∧
    (p.memSize < p.loadAddr + rom.length → State.boot p rom now = none)

/-- With an empty ROM the first step after a reset at any time raises DecodeError(0x200, 0x0000), whatever the host does (R353;
D10). -/
def Obligations.EmptyRomFaultsAtOnce : Prop :=
  ∀ (now : Nat) (s : State), State.boot Params.hardware [] now = some s →
    ∃ t, step s = .next t ∧ t.status = .faulted ⟨.decodeError, 0x200, some 0x0000, none⟩

/-- `Status()` answers faulted with the record, else waiting for key, else running (R304). -/
def Obligations.StatusAnswers : Prop :=
  ∀ s : State,
    (∀ r, s.status = .faulted r → s.hostStatus = .faulted r) ∧
    (s.status = .running → s.waitX ≠ none → s.hostStatus = .waitingForKey) ∧
    (s.status = .running → s.waitX = none → s.hostStatus = .running)

/-- The invariant holds at this hardware's reset, and after `Reset(rom)` with any legal parameters, any ROM that is launched and
at any time (R45, R350). -/
def Obligations.InvariantAtReset : Prop :=
  MachineInv State.reset ∧
  ∀ (p : Params) (rom : List Byte) (now : Nat) (s : State), p.legal → State.boot p rom now = some s → MachineInv s

/-- Every step keeps the invariant, from every state that has it: parameters possible, memory canonical, the display of its
size, the timer set no later than the clock, `pc` and return addresses in range (R142, R143), a finite stack within its capacity
(R144), a pending wait at its Fx0A (R272), a fault record at the `pc` that faulted (R303). -/
def Obligations.StepKeepsInvariant : Prop :=
  ∀ s t : State, MachineInv s → step s = .next t → MachineInv t

/-! ## Parameters -/

/-- Every parameter of R7 is an argument of the machine, and this hardware has R7's values. Nine travel in the state: the reset
state and `Reset(rom)` take them at any sizes, `pc` starts at `LOAD_ADDR`, and no step changes them. The other five are the sizes of
the state: with `NREG`, `REG_W`, `PC_W`, `I_W` and `NKEYS` given there are `NREG` registers, all 0 at reset, and 7xnn, the advance
of `pc` and Fx1E wrap at the widths given (R33); with R7's sizes the machine is `exec` and `step`. That there are at least 16
registers, and where the parameters stand, is the model's choice (log 7). -/
def Obligations.ParametersAreArguments : Prop :=
  State.reset.params.loadAddr = 0x200 ∧ State.reset.params.glyphBytes = 5 ∧ State.reset.params.glyphCount = 16 ∧
  State.reset.params.memSize = 4096 ∧ State.reset.params.displayW = 64 ∧ State.reset.params.displayH = 32 ∧
  State.reset.params.tickMs = 17 ∧ State.reset.params.stackCapacity = none ∧
  State.reset.params.glyphs.length = 80 ∧ (∀ a < 80, State.reset.params.glyphs[a]? = some (State.reset.byteAt a)) ∧
  State.reset.params.legal ∧
  (∀ (i : Instr) (s : State 16 8 16 16 16), execAt (Nat.le_refl 16) i s = exec i s) ∧
  (∀ s : State 16 8 16 16 16, stepAt (Nat.le_refl 16) s = step s) ∧
  ∀ nr rw pw iw nk : Nat,
    (∀ p : Params, (State.resetWith p nr rw pw iw nk).params = p ∧
      (∀ x : Fin nr, (State.resetWith p nr rw pw iw nk).getV x = 0) ∧
      (p.loadAddr < 2 ^ pw → (State.resetWith p nr rw pw iw nk).pc.toNat = p.loadAddr)) ∧
    (∀ (p : Params) (rom : List Byte) (now : Nat) (s : State nr rw pw iw nk),
      State.boot p rom now nr rw pw iw nk = some s → s.params = p) ∧
    ∀ (h : 16 ≤ nr) (s : State nr rw pw iw nk),
      (∀ t, stepAt h s = .next t → t.params = s.params) ∧
      (∀ (x : RegIdx) (nn : Byte), ∃ t, execAt h (.addImm x nn) s = .next t ∧
        (t.getV (Fin.castLE h x)).toNat = ((s.getV (Fin.castLE h x)).toNat + nn.toNat) % 2 ^ rw ∧
        (∀ k, k ≠ Fin.castLE h x → t.getV k = s.getV k) ∧ t.pc.toNat = (s.pc.toNat + 2) % 2 ^ pw) ∧
      ∀ x : RegIdx, ∃ t, execAt h (.addI x) s = .next t ∧
        t.i.toNat = (s.i.toNat + (s.getV (Fin.castLE h x)).toNat) % 2 ^ iw
end

