-- ==== Sys2Proof/Laws/Decode.lean ====
section
/-! SUPPORT. The fields of a packed opcode, and packing an opcode's own fields (spec/30_encoding.md R101), through their values
as natural numbers. -/

namespace Sys2Proof

theorem regOfBits_bitsOfReg (x : RegIdx) : regOfBits (bitsOfReg x) = x := by
  apply Fin.ext
  simp [regOfBits, bitsOfReg]

theorem bitsOfReg_regOfBits (b : BitVec 4) : bitsOfReg (regOfBits b) = b := by
  apply BitVec.eq_of_toNat_eq
  simp [regOfBits, bitsOfReg]

/-! ### Values -/

/-- Concatenation as arithmetic (R8 "`a ++ b` is concatenation with `a` in the high bits"). -/
theorem toNat_concat {m n : Nat} (a : BitVec m) (b : BitVec n) : (a ++ b).toNat = a.toNat * 2 ^ n + b.toNat := by
  rw [BitVec.toNat_append, ← Nat.shiftLeft_add_eq_or_of_lt b.isLt, Nat.shiftLeft_eq]

theorem toNat_packNNN (hi : BitVec 4) (nnn : Addr12) : (packNNN hi nnn).toNat = hi.toNat * 4096 + nnn.toNat :=
  toNat_concat hi nnn

theorem toNat_packXNN (hi : BitVec 4) (x : RegIdx) (nn : Byte) :
    (packXNN hi x nn).toNat = hi.toNat * 4096 + ((bitsOfReg x).toNat * 256 + nn.toNat) := by
  have h := toNat_concat hi (bitsOfReg x ++ nn)
  rw [toNat_concat (bitsOfReg x) nn] at h
  exact h

theorem toNat_packXYN (hi : BitVec 4) (x y : RegIdx) (n : BitVec 4) :
    (packXYN hi x y n).toNat
      = hi.toNat * 4096 + ((bitsOfReg x).toNat * 256 + ((bitsOfReg y).toNat * 16 + n.toNat)) := by
  have h := toNat_concat hi (bitsOfReg x ++ (bitsOfReg y ++ n))
  rw [toNat_concat (bitsOfReg x) (bitsOfReg y ++ n), toNat_concat (bitsOfReg y) n] at h
  exact h

theorem toNat_opcodeOfBytes (hi lo : Byte) : (opcodeOfBytes hi lo).toNat = hi.toNat * 256 + lo.toNat := toNat_concat hi lo

theorem toNat_fieldHi (op : Word) : (fieldHi op).toNat = op.toNat / 4096 % 16 := by
  simp [fieldHi, Nat.shiftRight_eq_div_pow]
theorem toNat_fieldX (op : Word) : (fieldX op).toNat = op.toNat / 256 % 16 := by
  simp [fieldX, Nat.shiftRight_eq_div_pow]
theorem toNat_fieldY (op : Word) : (fieldY op).toNat = op.toNat / 16 % 16 := by
  simp [fieldY, Nat.shiftRight_eq_div_pow]
theorem toNat_fieldN (op : Word) : (fieldN op).toNat = op.toNat % 16 := by simp [fieldN]
theorem toNat_fieldNN (op : Word) : (fieldNN op).toNat = op.toNat % 256 := by simp [fieldNN]
theorem toNat_fieldNNN (op : Word) : (fieldNNN op).toNat = op.toNat % 4096 := by simp [fieldNNN]

/-! ### Fields of each format -/

theorem fieldHi_packNNN (hi : BitVec 4) (nnn : Addr12) : fieldHi (packNNN hi nnn) = hi := by
  apply BitVec.eq_of_toNat_eq
  rw [toNat_fieldHi, toNat_packNNN]
  have := hi.isLt; have := nnn.isLt; omega

theorem fieldNNN_packNNN (hi : BitVec 4) (nnn : Addr12) : fieldNNN (packNNN hi nnn) = nnn := by
  apply BitVec.eq_of_toNat_eq
  rw [toNat_fieldNNN, toNat_packNNN]
  have := nnn.isLt; omega

theorem fieldHi_packXNN (hi : BitVec 4) (x : RegIdx) (nn : Byte) : fieldHi (packXNN hi x nn) = hi := by
  apply BitVec.eq_of_toNat_eq
  rw [toNat_fieldHi, toNat_packXNN]
  have := hi.isLt; have := nn.isLt; have := (bitsOfReg x).isLt; omega

theorem fieldX_packXNN (hi : BitVec 4) (x : RegIdx) (nn : Byte) : fieldX (packXNN hi x nn) = bitsOfReg x := by
  apply BitVec.eq_of_toNat_eq
  rw [toNat_fieldX, toNat_packXNN]
  have := nn.isLt; have := (bitsOfReg x).isLt; omega

theorem fieldNN_packXNN (hi : BitVec 4) (x : RegIdx) (nn : Byte) : fieldNN (packXNN hi x nn) = nn := by
  apply BitVec.eq_of_toNat_eq
  rw [toNat_fieldNN, toNat_packXNN]
  have := nn.isLt; omega

theorem fieldHi_packXYN (hi : BitVec 4) (x y : RegIdx) (n : BitVec 4) : fieldHi (packXYN hi x y n) = hi := by
  apply BitVec.eq_of_toNat_eq
  rw [toNat_fieldHi, toNat_packXYN]
  have := hi.isLt; have := n.isLt; have := (bitsOfReg x).isLt; have := (bitsOfReg y).isLt; omega

theorem fieldX_packXYN (hi : BitVec 4) (x y : RegIdx) (n : BitVec 4) : fieldX (packXYN hi x y n) = bitsOfReg x := by
  apply BitVec.eq_of_toNat_eq
  rw [toNat_fieldX, toNat_packXYN]
  have := n.isLt; have := (bitsOfReg x).isLt; have := (bitsOfReg y).isLt; omega

theorem fieldY_packXYN (hi : BitVec 4) (x y : RegIdx) (n : BitVec 4) : fieldY (packXYN hi x y n) = bitsOfReg y := by
  apply BitVec.eq_of_toNat_eq
  rw [toNat_fieldY, toNat_packXYN]
  have := n.isLt; have := (bitsOfReg y).isLt; omega

theorem fieldN_packXYN (hi : BitVec 4) (x y : RegIdx) (n : BitVec 4) : fieldN (packXYN hi x y n) = n := by
  apply BitVec.eq_of_toNat_eq
  rw [toNat_fieldN, toNat_packXYN]
  have := n.isLt; omega

/-! ### An opcode from its own fields -/

theorem packNNN_fields (op : Word) : packNNN (fieldHi op) (fieldNNN op) = op := by
  apply BitVec.eq_of_toNat_eq
  rw [toNat_packNNN, toNat_fieldHi, toNat_fieldNNN]
  have := op.isLt; omega

theorem packXNN_fields (op : Word) : packXNN (fieldHi op) (regOfBits (fieldX op)) (fieldNN op) = op := by
  apply BitVec.eq_of_toNat_eq
  rw [toNat_packXNN, bitsOfReg_regOfBits, toNat_fieldHi, toNat_fieldX, toNat_fieldNN]
  have := op.isLt; omega

theorem packXYN_fields (op : Word) :
    packXYN (fieldHi op) (regOfBits (fieldX op)) (regOfBits (fieldY op)) (fieldN op) = op := by
  apply BitVec.eq_of_toNat_eq
  rw [toNat_packXYN, bitsOfReg_regOfBits, bitsOfReg_regOfBits, toNat_fieldHi, toNat_fieldX, toNat_fieldY, toNat_fieldN]
  have := op.isLt; omega

/-- The two bytes of an opcode compose to it again (R77). -/
theorem opcodeOfBytes_bytesOfOpcode (op : Word) : opcodeOfBytes (bytesOfOpcode op).1 (bytesOfOpcode op).2 = op := by
  apply BitVec.eq_of_toNat_eq
  rw [toNat_opcodeOfBytes]
  have := op.isLt
  simp [bytesOfOpcode, Nat.shiftRight_eq_div_pow]
  omega

/-- A table word decodes as the decoder reads it. -/
theorem decodeTableWord_eq (nbits w : Nat) : decodeTableWord nbits w = (decode (tableWord nbits w)).toOption := by
  simp only [decodeTableWord, decodeBytes, opcodeOfBytes_bytesOfOpcode]
  cases decode (tableWord nbits w) <;> rfl

end Sys2Proof
end

