-- ==== Sys2Proof/Laws/Display.lean ====
section
/-! SUPPORT. The blit engine: what a pixel is after a write, a row and a sprite, and when a collision is reported
(spec/43_display.md R240 to R244, R247), for any legal parameters and a display of their size. -/

namespace Sys2Proof.Machine

variable {p : Params}

/-! ### Pixels -/

theorem pixelIndex_lt (hp : p.legal) (px py : Nat) : pixelIndex p px py < p.displayW * p.displayH := by
  obtain ⟨-, -, -, -, hw, hh, -⟩ := hp
  have hx : px % p.displayW < p.displayW := Nat.mod_lt _ hw
  have hy : py % p.displayH + 1 ≤ p.displayH := Nat.mod_lt _ hh
  have := Nat.mul_le_mul_right p.displayW hy
  rw [Nat.add_mul, Nat.one_mul, Nat.mul_comm p.displayH] at this
  unfold pixelIndex
  omega

/-- Two coordinate pairs name one pixel exactly when they agree after wrapping (R242). -/
theorem pixelIndex_eq_iff (hp : p.legal) {px py qx qy : Nat} :
    pixelIndex p px py = pixelIndex p qx qy ↔
      px % p.displayW = qx % p.displayW ∧ py % p.displayH = qy % p.displayH := by
  obtain ⟨-, -, -, -, hw, -, -⟩ := hp
  refine ⟨fun h => ?_, fun h => by rw [pixelIndex, pixelIndex, h.1, h.2]⟩
  unfold pixelIndex at h
  have hm := congrArg (· % p.displayW) h
  have hd := congrArg (· / p.displayW) h
  simp only [Nat.mul_add_mod', Nat.mod_mod] at hm
  simp only [Nat.mul_add_div hw, Nat.mul_comm _ p.displayW, Nat.div_eq_of_lt (Nat.mod_lt _ hw), Nat.add_zero] at hd
  exact ⟨hm, hd⟩

@[simp] theorem Display.length_setPixel (d : Display) (px py : Nat) (b : Bool) :
    (d.setPixel p px py b).length = d.length := List.length_set

theorem Display.pixel_setPixel {d : Display} (hp : p.legal) (hd : d.wf p) (px py qx qy : Nat) (b : Bool) :
    (d.setPixel p px py b).pixel p qx qy = if pixelIndex p px py = pixelIndex p qx qy then b else d.pixel p qx qy := by
  have h : pixelIndex p px py < d.length := hd ▸ pixelIndex_lt hp px py
  unfold Display.setPixel Display.pixel
  by_cases e : pixelIndex p px py = pixelIndex p qx qy
  · simp [← e, h]
  · simp [e]

@[simp] theorem Display.pixel_clear (px py : Nat) : (Display.clear p).pixel p px py = false := by
  unfold Display.clear Display.pixel
  rw [List.getD_eq_getElem?_getD, List.getElem?_replicate]
  split <;> rfl

theorem Display.wf_clear : (Display.clear p).wf p := List.length_replicate

/-- Displays of one size with the same pixels are equal. -/
theorem Display.ext_pixel {d e : Display} (hp : p.legal) (hd : d.wf p) (he : e.wf p)
    (h : ∀ px < p.displayW, ∀ py < p.displayH, d.pixel p px py = e.pixel p px py) : d = e := by
  apply List.ext_getElem (hd.trans he.symm)
  intro k hk hk'
  obtain ⟨-, -, -, -, hw, -, -⟩ := hp
  have hlt : k < p.displayW * p.displayH := hd ▸ hk
  have hx : k % p.displayW < p.displayW := Nat.mod_lt _ hw
  have hy : k / p.displayW < p.displayH := Nat.div_lt_of_lt_mul hlt
  have hidx : pixelIndex p (k % p.displayW) (k / p.displayW) = k := by
    rw [pixelIndex, Nat.mod_eq_of_lt hy, Nat.mod_mod, Nat.mul_comm]
    exact Nat.div_add_mod k p.displayW
  have := h _ hx _ hy
  unfold Display.pixel at this
  rwa [hidx, List.getD_eq_getElem _ _ hk, List.getD_eq_getElem _ _ hk'] at this

/-! ### One column -/

@[simp] theorem Display.length_drawBit (d : Display) (bit : Bool) (px py : Nat) :
    (d.drawBit p bit px py).1.length = d.length := by
  cases bit <;> simp [Display.drawBit]

/-- A column inverts its pixel when its bit is 1, and reports whether that pixel was set (R244). -/
theorem Display.drawBit_pixel {d : Display} (hp : p.legal) (hd : d.wf p) (bit : Bool) (px py qx qy : Nat) :
    (d.drawBit p bit px py).1.pixel p qx qy
      = (d.pixel p qx qy ^^ (bit && decide (pixelIndex p px py = pixelIndex p qx qy))) := by
  cases bit with
  | false => simp [Display.drawBit]
  | true =>
    by_cases h : pixelIndex p px py = pixelIndex p qx qy
    · have : d.pixel p px py = d.pixel p qx qy := by unfold Display.pixel; simp only [h]
      simp [Display.drawBit, Display.pixel_setPixel hp hd, h, this]
    · simp [Display.drawBit, Display.pixel_setPixel hp hd, h]

theorem Display.drawBit_collides (d : Display) (bit : Bool) (px py : Nat) :
    (d.drawBit p bit px py).2 = (bit && d.pixel p px py) := by
  cases bit <;> simp [Display.drawBit]

/-! ### One row -/

@[simp] theorem Display.length_drawBits (d : Display) (b : Byte) (x y : Nat) (cs : List Nat) :
    (d.drawBits p b x y cs).1.length = d.length := by
  induction cs generalizing d with
  | nil => rfl
  | cons c cs ih => simp [Display.drawBits, ih]

/-- Whether one of the columns `cs` of the row byte has a 1 bit at the pixel (R244). -/
def rowCovers (p : Params) (b : Byte) (x y : Nat) (cs : List Nat) (qx qy : Nat) : Bool :=
  cs.any fun c => b.getMsbD c && decide (pixelIndex p (x + c) y = pixelIndex p qx qy)

theorem rowCovers_cons (b : Byte) (x y c : Nat) (cs : List Nat) (qx qy : Nat) :
    rowCovers p b x y (c :: cs) qx qy
      = ((b.getMsbD c && decide (pixelIndex p (x + c) y = pixelIndex p qx qy)) || rowCovers p b x y cs qx qy) := by
  simp [rowCovers]

theorem rowCovers_iff {b : Byte} {x y : Nat} {cs : List Nat} {qx qy : Nat} :
    rowCovers p b x y cs qx qy = true ↔
      ∃ c ∈ cs, b.getMsbD c = true ∧ pixelIndex p (x + c) y = pixelIndex p qx qy := by
  simp [rowCovers]

/-- Different columns of a row are different pixels, when a row is no wider than the display. -/
theorem column_ne (hp : p.legal) {x y c c' : Nat} (hc : c < p.displayW) (hc' : c' < p.displayW) (h : c ≠ c') :
    pixelIndex p (x + c) y ≠ pixelIndex p (x + c') y := by
  rw [Ne, pixelIndex_eq_iff hp]
  rintro ⟨e, -⟩
  have : c ≡ c' [MOD p.displayW] := Nat.ModEq.add_left_cancel' x e
  exact h (by rwa [Nat.ModEq, Nat.mod_eq_of_lt hc, Nat.mod_eq_of_lt hc'] at this)

theorem Display.drawBits_pixel {d : Display} (hp : p.legal) (hd : d.wf p) (b : Byte) (x y : Nat) {cs : List Nat}
    (hn : cs.Nodup) (hw : ∀ c ∈ cs, c < p.displayW) (qx qy : Nat) :
    (d.drawBits p b x y cs).1.pixel p qx qy = (d.pixel p qx qy ^^ rowCovers p b x y cs qx qy) := by
  induction cs generalizing d with
  | nil => simp [Display.drawBits, rowCovers]
  | cons c cs ih =>
    obtain ⟨hc, hn⟩ := List.nodup_cons.mp hn
    simp only [Display.drawBits]
    rw [ih ((Display.length_drawBit ..).trans hd) hn fun e he => hw e (by simp [he]), Display.drawBit_pixel hp hd,
      rowCovers_cons]
    by_cases h : b.getMsbD c = true ∧ pixelIndex p (x + c) y = pixelIndex p qx qy
    · have hr : rowCovers p b x y cs qx qy = false := by
        rw [Bool.eq_false_iff]
        intro hcov
        obtain ⟨e, he, -, hpe⟩ := rowCovers_iff.mp hcov
        have hne : c ≠ e := fun h => hc (h ▸ he)
        exact column_ne hp (hw c (by simp)) (hw e (by simp [he])) hne (h.2.trans hpe.symm)
      simp [h.1, h.2, hr]
    · have : (b.getMsbD c && decide (pixelIndex p (x + c) y = pixelIndex p qx qy)) = false := by
        rw [Bool.eq_false_iff]; simpa using h
      simp [this]

theorem Display.drawBits_collides {d : Display} (hp : p.legal) (hd : d.wf p) (b : Byte) (x y : Nat) {cs : List Nat}
    (hn : cs.Nodup) (hw : ∀ c ∈ cs, c < p.displayW) :
    (d.drawBits p b x y cs).2 = true ↔ ∃ c ∈ cs, b.getMsbD c = true ∧ d.pixel p (x + c) y = true := by
  induction cs generalizing d with
  | nil => simp [Display.drawBits]
  | cons c cs ih =>
    obtain ⟨hc, hn⟩ := List.nodup_cons.mp hn
    have hsame : ∀ e ∈ cs, (d.drawBit p (b.getMsbD c) (x + c) y).1.pixel p (x + e) y = d.pixel p (x + e) y := by
      intro e he
      have hne : c ≠ e := fun h => hc (h ▸ he)
      have := column_ne hp (x := x) (y := y) (hw c (by simp)) (hw e (by simp [he])) hne
      simp [Display.drawBit_pixel hp hd, this]
    simp only [Display.drawBits, Bool.or_eq_true]
    rw [ih ((Display.length_drawBit ..).trans hd) hn fun e he => hw e (by simp [he]), Display.drawBit_collides]
    constructor
    · rintro (h | ⟨e, he, hb, h⟩)
      · exact ⟨c, by simp, by simpa using h⟩
      · exact ⟨e, by simp [he], hb, (hsame e he) ▸ h⟩
    · rintro ⟨e, he, hb, h⟩
      rcases List.mem_cons.mp he with rfl | he
      · left; simp [hb, h]
      · exact Or.inr ⟨e, he, hb, (hsame e he).symm ▸ h⟩

theorem columns_nodup : [0, 1, 2, 3, 4, 5, 6, 7].Nodup := by decide
theorem columns_lt (h8 : 8 ≤ p.displayW) : ∀ c ∈ [0, 1, 2, 3, 4, 5, 6, 7], c < p.displayW := by
  intro c hc
  have : c < 8 := List.mem_range.mp (show c ∈ List.range 8 from hc)
  omega

@[simp] theorem Display.length_drawRow (d : Display) (b : Byte) (x y : Nat) : (d.drawRow p b x y).1.length = d.length :=
  d.length_drawBits ..

/-- A row inverts exactly the pixels its 1 bits meet (R244). -/
theorem Display.drawRow_pixel {d : Display} (hp : p.legal) (hd : d.wf p) (h8 : 8 ≤ p.displayW) (b : Byte) (x y qx qy : Nat) :
    (d.drawRow p b x y).1.pixel p qx qy = (d.pixel p qx qy ^^ rowCovers p b x y (List.range 8) qx qy) :=
  Display.drawBits_pixel hp hd b x y columns_nodup (columns_lt h8) qx qy

/-- A row collides exactly when a 1 bit meets a set pixel (R244). -/
theorem Display.drawRow_collides {d : Display} (hp : p.legal) (hd : d.wf p) (h8 : 8 ≤ p.displayW) (b : Byte) (x y : Nat) :
    (d.drawRow p b x y).2 = true ↔ ∃ c < 8, b.getMsbD c = true ∧ d.pixel p (x + c) y = true := by
  unfold Display.drawRow
  rw [Display.drawBits_collides hp hd b x y columns_nodup (columns_lt h8)]
  constructor
  · rintro ⟨c, hc, h⟩
    exact ⟨c, by simpa using List.mem_range.mp (show c ∈ List.range 8 from hc), h⟩
  · rintro ⟨c, hc, h⟩
    exact ⟨c, show c ∈ List.range 8 from List.mem_range.mpr hc, h⟩

/-! ### A whole sprite -/

@[simp] theorem Display.length_drawSprite (d : Display) (x y : Nat) (bs : List Byte) :
    (d.drawSprite p x y bs).1.length = d.length := by
  induction bs generalizing d y with
  | nil => rfl
  | cons b bs ih => simp [Display.drawSprite, ih]

/-- Whether a sprite, its rows downwards from `y`, has a 1 bit at the pixel (R247). -/
def rowsCover (p : Params) (x y : Nat) (bs : List Byte) (qx qy : Nat) : Bool :=
  match bs with
  | [] => false
  | b :: bs => rowCovers p b x y (List.range 8) qx qy || rowsCover p x (y + 1) bs qx qy

theorem rowsCover_iff {x y : Nat} {bs : List Byte} {qx qy : Nat} :
    rowsCover p x y bs qx qy = true ↔
      ∃ r, ∃ hr : r < bs.length, ∃ c < 8,
        bs[r].getMsbD c = true ∧ pixelIndex p (x + c) (y + r) = pixelIndex p qx qy := by
  induction bs generalizing y with
  | nil => simp [rowsCover]
  | cons b bs ih =>
    simp only [rowsCover, Bool.or_eq_true, ih, rowCovers_iff, List.mem_range]
    constructor
    · rintro (⟨c, hc, h⟩ | ⟨r, hr, c, hc, hb, h⟩)
      · exact ⟨0, by simp, c, hc, by simpa using h⟩
      · exact ⟨r + 1, by simpa using hr, c, hc, by simpa using hb, by rwa [show y + (r + 1) = y + 1 + r by omega]⟩
    · rintro ⟨r, hr, c, hc, hb, h⟩
      cases r with
      | zero => exact Or.inl ⟨c, hc, by simpa using hb, by simpa using h⟩
      | succ r =>
        exact Or.inr ⟨r, by simpa using hr, c, hc, by simpa using hb, by rwa [show y + 1 + r = y + (r + 1) by omega]⟩

/-- Rows of a sprite no taller than the display are different rows of it. -/
theorem row_ne {y r : Nat} (hr : r + 1 < p.displayH) : (y + 1 + r) % p.displayH ≠ y % p.displayH := by
  intro e
  have h : y + (1 + r) ≡ y + 0 [MOD p.displayH] := by rw [← Nat.add_assoc, Nat.add_zero]; exact e
  have := Nat.ModEq.add_left_cancel' y h
  rw [Nat.ModEq, Nat.mod_eq_of_lt (by omega), Nat.zero_mod] at this
  omega

/-- Rows below the first do not reach its pixels while the sprite is no taller than the display. -/
theorem rowsCover_below (hp : p.legal) {x y : Nat} {bs : List Byte} {qx qy : Nat} (hl : bs.length < p.displayH) :
    rowsCover p x (y + 1) bs qx qy = true → qy % p.displayH ≠ y % p.displayH := by
  intro h
  obtain ⟨r, hr, c, -, -, h⟩ := rowsCover_iff.mp h
  rw [← ((pixelIndex_eq_iff hp).mp h).2]
  exact row_ne (by omega)

/-- A sprite inverts exactly the pixels its 1 bits meet (R244, R247). -/
theorem Display.drawSprite_pixel {d : Display} (hp : p.legal) (hd : d.wf p) (h8 : 8 ≤ p.displayW) (x y : Nat) {bs : List Byte}
    (hl : bs.length ≤ p.displayH) (qx qy : Nat) :
    (d.drawSprite p x y bs).1.pixel p qx qy = (d.pixel p qx qy ^^ rowsCover p x y bs qx qy) := by
  induction bs generalizing d y with
  | nil => simp [Display.drawSprite, rowsCover]
  | cons b bs ih =>
    have hl' : bs.length < p.displayH := hl
    simp only [Display.drawSprite, rowsCover]
    rw [ih ((Display.length_drawRow ..).trans hd) _ (Nat.le_of_lt hl'), Display.drawRow_pixel hp hd h8]
    cases hrow : rowCovers p b x y (List.range 8) qx qy with
    | false => simp
    | true =>
      obtain ⟨c, -, -, h⟩ := rowCovers_iff.mp hrow
      have hrest : rowsCover p x (y + 1) bs qx qy = false := by
        rw [Bool.eq_false_iff]
        exact fun hc => rowsCover_below hp hl' hc ((pixelIndex_eq_iff hp).mp h).2.symm
      simp [hrest]

/-- A sprite collides exactly when one of its 1 bits meets a set pixel (R244, R247). -/
theorem Display.drawSprite_collides {d : Display} (hp : p.legal) (hd : d.wf p) (h8 : 8 ≤ p.displayW) (x y : Nat)
    {bs : List Byte} (hl : bs.length ≤ p.displayH) :
    (d.drawSprite p x y bs).2 = true ↔
      ∃ r, ∃ hr : r < bs.length, ∃ c < 8, bs[r].getMsbD c = true ∧ d.pixel p (x + c) (y + r) = true := by
  induction bs generalizing d y with
  | nil => simp [Display.drawSprite]
  | cons b bs ih =>
    have hl' : bs.length < p.displayH := hl
    have hsame : ∀ c, ∀ r < bs.length,
        (d.drawRow p b x y).1.pixel p (x + c) (y + 1 + r) = d.pixel p (x + c) (y + 1 + r) := by
      intro c r hr
      rw [Display.drawRow_pixel hp hd h8]
      have : rowCovers p b x y (List.range 8) (x + c) (y + 1 + r) = false := by
        rw [Bool.eq_false_iff]
        intro h
        obtain ⟨e, -, -, h⟩ := rowCovers_iff.mp h
        exact row_ne (by omega) ((pixelIndex_eq_iff hp).mp h).2.symm
      simp [this]
    simp only [Display.drawSprite, Bool.or_eq_true]
    rw [ih ((Display.length_drawRow ..).trans hd) _ (Nat.le_of_lt hl'), Display.drawRow_collides hp hd h8]
    constructor
    · rintro (⟨c, hc, h⟩ | ⟨r, hr, c, hc, hb, h⟩)
      · exact ⟨0, by simp, c, hc, by simpa using h⟩
      · refine ⟨r + 1, by simpa using hr, c, hc, by simpa using hb, ?_⟩
        rw [hsame c r hr] at h
        rwa [show y + (r + 1) = y + 1 + r by omega]
    · rintro ⟨r, hr, c, hc, hb, h⟩
      cases r with
      | zero => exact Or.inl ⟨c, hc, by simpa using hb, by simpa using h⟩
      | succ r =>
        have hr' : r < bs.length := by simpa using hr
        refine Or.inr ⟨r, hr', c, hc, by simpa using hb, ?_⟩
        rw [hsame c r hr']
        rwa [show y + 1 + r = y + (r + 1) by omega]

end Sys2Proof.Machine
end

