-- ==== Sys2Proof/Laws/State.lean ====
section
/-! SUPPORT. One lemma per field per update of the state, so that no later proof unfolds a record update, and what a register
reads after a write. -/

namespace Sys2Proof.Machine

variable {nr rw pw iw nk : Nat}

/-- On this hardware VF is register 15 and V0 is register 0. -/
@[simp] theorem vF_eq : (vF : RegIdx) = 15 := rfl
@[simp] theorem v0_eq : (v0 : RegIdx) = 0 := rfl

/-! ### setV -/

@[simp] theorem State.setV_params (s : State nr rw pw iw nk) (x : Fin nr) (b : BitVec rw) : (s.setV x b).params = s.params := rfl
@[simp] theorem State.setV_i (s : State nr rw pw iw nk) (x : Fin nr) (b : BitVec rw) : (s.setV x b).i = s.i := rfl
@[simp] theorem State.setV_pc (s : State nr rw pw iw nk) (x : Fin nr) (b : BitVec rw) : (s.setV x b).pc = s.pc := rfl
@[simp] theorem State.setV_stack (s : State nr rw pw iw nk) (x : Fin nr) (b : BitVec rw) : (s.setV x b).stack = s.stack := rfl
@[simp] theorem State.setV_mem (s : State nr rw pw iw nk) (x : Fin nr) (b : BitVec rw) : (s.setV x b).mem = s.mem := rfl
@[simp] theorem State.setV_disp (s : State nr rw pw iw nk) (x : Fin nr) (b : BitVec rw) : (s.setV x b).disp = s.disp := rfl
@[simp] theorem State.setV_key (s : State nr rw pw iw nk) (x : Fin nr) (b : BitVec rw) : (s.setV x b).key = s.key := rfl
@[simp] theorem State.setV_timerValue (s : State nr rw pw iw nk) (x : Fin nr) (b : BitVec rw) :
    (s.setV x b).timerValue = s.timerValue := rfl
@[simp] theorem State.setV_timerInstant (s : State nr rw pw iw nk) (x : Fin nr) (b : BitVec rw) :
    (s.setV x b).timerInstant = s.timerInstant := rfl
@[simp] theorem State.setV_waitX (s : State nr rw pw iw nk) (x : Fin nr) (b : BitVec rw) : (s.setV x b).waitX = s.waitX := rfl
@[simp] theorem State.setV_status (s : State nr rw pw iw nk) (x : Fin nr) (b : BitVec rw) : (s.setV x b).status = s.status := rfl
@[simp] theorem State.setV_now (s : State nr rw pw iw nk) (x : Fin nr) (b : BitVec rw) : (s.setV x b).now = s.now := rfl
@[simp] theorem State.setV_rand (s : State nr rw pw iw nk) (x : Fin nr) (b : BitVec rw) : (s.setV x b).rand = s.rand := rfl
@[simp] theorem State.setV_host (s : State nr rw pw iw nk) (x : Fin nr) (b : BitVec rw) : (s.setV x b).host = s.host := rfl
@[simp] theorem State.setV_draws (s : State nr rw pw iw nk) (x : Fin nr) (b : BitVec rw) : (s.setV x b).draws = s.draws := rfl

/-! ### setI -/

@[simp] theorem State.setI_params (s : State nr rw pw iw nk) (a : BitVec iw) : (s.setI a).params = s.params := rfl
@[simp] theorem State.setI_v (s : State nr rw pw iw nk) (a : BitVec iw) : (s.setI a).v = s.v := rfl
@[simp] theorem State.setI_i (s : State nr rw pw iw nk) (a : BitVec iw) : (s.setI a).i = a := rfl
@[simp] theorem State.setI_pc (s : State nr rw pw iw nk) (a : BitVec iw) : (s.setI a).pc = s.pc := rfl
@[simp] theorem State.setI_stack (s : State nr rw pw iw nk) (a : BitVec iw) : (s.setI a).stack = s.stack := rfl
@[simp] theorem State.setI_mem (s : State nr rw pw iw nk) (a : BitVec iw) : (s.setI a).mem = s.mem := rfl
@[simp] theorem State.setI_disp (s : State nr rw pw iw nk) (a : BitVec iw) : (s.setI a).disp = s.disp := rfl
@[simp] theorem State.setI_key (s : State nr rw pw iw nk) (a : BitVec iw) : (s.setI a).key = s.key := rfl
@[simp] theorem State.setI_timerValue (s : State nr rw pw iw nk) (a : BitVec iw) : (s.setI a).timerValue = s.timerValue := rfl
@[simp] theorem State.setI_timerInstant (s : State nr rw pw iw nk) (a : BitVec iw) : (s.setI a).timerInstant = s.timerInstant := rfl
@[simp] theorem State.setI_waitX (s : State nr rw pw iw nk) (a : BitVec iw) : (s.setI a).waitX = s.waitX := rfl
@[simp] theorem State.setI_status (s : State nr rw pw iw nk) (a : BitVec iw) : (s.setI a).status = s.status := rfl
@[simp] theorem State.setI_now (s : State nr rw pw iw nk) (a : BitVec iw) : (s.setI a).now = s.now := rfl
@[simp] theorem State.setI_rand (s : State nr rw pw iw nk) (a : BitVec iw) : (s.setI a).rand = s.rand := rfl
@[simp] theorem State.setI_host (s : State nr rw pw iw nk) (a : BitVec iw) : (s.setI a).host = s.host := rfl
@[simp] theorem State.setI_draws (s : State nr rw pw iw nk) (a : BitVec iw) : (s.setI a).draws = s.draws := rfl

/-! ### setPc -/

@[simp] theorem State.setPc_params (s : State nr rw pw iw nk) (a : BitVec pw) : (s.setPc a).params = s.params := rfl
@[simp] theorem State.setPc_v (s : State nr rw pw iw nk) (a : BitVec pw) : (s.setPc a).v = s.v := rfl
@[simp] theorem State.setPc_i (s : State nr rw pw iw nk) (a : BitVec pw) : (s.setPc a).i = s.i := rfl
@[simp] theorem State.setPc_pc (s : State nr rw pw iw nk) (a : BitVec pw) : (s.setPc a).pc = a := rfl
@[simp] theorem State.setPc_stack (s : State nr rw pw iw nk) (a : BitVec pw) : (s.setPc a).stack = s.stack := rfl
@[simp] theorem State.setPc_mem (s : State nr rw pw iw nk) (a : BitVec pw) : (s.setPc a).mem = s.mem := rfl
@[simp] theorem State.setPc_disp (s : State nr rw pw iw nk) (a : BitVec pw) : (s.setPc a).disp = s.disp := rfl
@[simp] theorem State.setPc_key (s : State nr rw pw iw nk) (a : BitVec pw) : (s.setPc a).key = s.key := rfl
@[simp] theorem State.setPc_timerValue (s : State nr rw pw iw nk) (a : BitVec pw) : (s.setPc a).timerValue = s.timerValue := rfl
@[simp] theorem State.setPc_timerInstant (s : State nr rw pw iw nk) (a : BitVec pw) : (s.setPc a).timerInstant = s.timerInstant := rfl
@[simp] theorem State.setPc_waitX (s : State nr rw pw iw nk) (a : BitVec pw) : (s.setPc a).waitX = s.waitX := rfl
@[simp] theorem State.setPc_status (s : State nr rw pw iw nk) (a : BitVec pw) : (s.setPc a).status = s.status := rfl
@[simp] theorem State.setPc_now (s : State nr rw pw iw nk) (a : BitVec pw) : (s.setPc a).now = s.now := rfl
@[simp] theorem State.setPc_rand (s : State nr rw pw iw nk) (a : BitVec pw) : (s.setPc a).rand = s.rand := rfl
@[simp] theorem State.setPc_host (s : State nr rw pw iw nk) (a : BitVec pw) : (s.setPc a).host = s.host := rfl
@[simp] theorem State.setPc_draws (s : State nr rw pw iw nk) (a : BitVec pw) : (s.setPc a).draws = s.draws := rfl

/-! ### advance -/

@[simp] theorem State.advance_params (s : State nr rw pw iw nk) : (s.advance).params = s.params := rfl
@[simp] theorem State.advance_v (s : State nr rw pw iw nk) : (s.advance).v = s.v := rfl
@[simp] theorem State.advance_i (s : State nr rw pw iw nk) : (s.advance).i = s.i := rfl
@[simp] theorem State.advance_pc (s : State nr rw pw iw nk) : (s.advance).pc = s.pc + 2 := rfl
@[simp] theorem State.advance_stack (s : State nr rw pw iw nk) : (s.advance).stack = s.stack := rfl
@[simp] theorem State.advance_mem (s : State nr rw pw iw nk) : (s.advance).mem = s.mem := rfl
@[simp] theorem State.advance_disp (s : State nr rw pw iw nk) : (s.advance).disp = s.disp := rfl
@[simp] theorem State.advance_key (s : State nr rw pw iw nk) : (s.advance).key = s.key := rfl
@[simp] theorem State.advance_timerValue (s : State nr rw pw iw nk) : (s.advance).timerValue = s.timerValue := rfl
@[simp] theorem State.advance_timerInstant (s : State nr rw pw iw nk) : (s.advance).timerInstant = s.timerInstant := rfl
@[simp] theorem State.advance_waitX (s : State nr rw pw iw nk) : (s.advance).waitX = s.waitX := rfl
@[simp] theorem State.advance_status (s : State nr rw pw iw nk) : (s.advance).status = s.status := rfl
@[simp] theorem State.advance_now (s : State nr rw pw iw nk) : (s.advance).now = s.now := rfl
@[simp] theorem State.advance_rand (s : State nr rw pw iw nk) : (s.advance).rand = s.rand := rfl
@[simp] theorem State.advance_host (s : State nr rw pw iw nk) : (s.advance).host = s.host := rfl
@[simp] theorem State.advance_draws (s : State nr rw pw iw nk) : (s.advance).draws = s.draws := rfl

/-! ### skipIf -/

@[simp] theorem State.skipIf_params (s : State nr rw pw iw nk) (c : Bool) : (s.skipIf c).params = s.params := rfl
@[simp] theorem State.skipIf_v (s : State nr rw pw iw nk) (c : Bool) : (s.skipIf c).v = s.v := rfl
@[simp] theorem State.skipIf_i (s : State nr rw pw iw nk) (c : Bool) : (s.skipIf c).i = s.i := rfl
@[simp] theorem State.skipIf_pc (s : State nr rw pw iw nk) (c : Bool) : (s.skipIf c).pc = if c then s.pc + 4 else s.pc + 2 := rfl
@[simp] theorem State.skipIf_stack (s : State nr rw pw iw nk) (c : Bool) : (s.skipIf c).stack = s.stack := rfl
@[simp] theorem State.skipIf_mem (s : State nr rw pw iw nk) (c : Bool) : (s.skipIf c).mem = s.mem := rfl
@[simp] theorem State.skipIf_disp (s : State nr rw pw iw nk) (c : Bool) : (s.skipIf c).disp = s.disp := rfl
@[simp] theorem State.skipIf_key (s : State nr rw pw iw nk) (c : Bool) : (s.skipIf c).key = s.key := rfl
@[simp] theorem State.skipIf_timerValue (s : State nr rw pw iw nk) (c : Bool) : (s.skipIf c).timerValue = s.timerValue := rfl
@[simp] theorem State.skipIf_timerInstant (s : State nr rw pw iw nk) (c : Bool) : (s.skipIf c).timerInstant = s.timerInstant := rfl
@[simp] theorem State.skipIf_waitX (s : State nr rw pw iw nk) (c : Bool) : (s.skipIf c).waitX = s.waitX := rfl
@[simp] theorem State.skipIf_status (s : State nr rw pw iw nk) (c : Bool) : (s.skipIf c).status = s.status := rfl
@[simp] theorem State.skipIf_now (s : State nr rw pw iw nk) (c : Bool) : (s.skipIf c).now = s.now := rfl
@[simp] theorem State.skipIf_rand (s : State nr rw pw iw nk) (c : Bool) : (s.skipIf c).rand = s.rand := rfl
@[simp] theorem State.skipIf_host (s : State nr rw pw iw nk) (c : Bool) : (s.skipIf c).host = s.host := rfl
@[simp] theorem State.skipIf_draws (s : State nr rw pw iw nk) (c : Bool) : (s.skipIf c).draws = s.draws := rfl

/-! ### loadRegs -/

@[simp] theorem State.loadRegs_params (s : State nr rw pw iw nk) (bytes : List Byte) : (s.loadRegs bytes).params = s.params := by simp only [State.loadRegs]
@[simp] theorem State.loadRegs_i (s : State nr rw pw iw nk) (bytes : List Byte) : (s.loadRegs bytes).i = s.i := by simp only [State.loadRegs]
@[simp] theorem State.loadRegs_pc (s : State nr rw pw iw nk) (bytes : List Byte) : (s.loadRegs bytes).pc = s.pc := by simp only [State.loadRegs]
@[simp] theorem State.loadRegs_stack (s : State nr rw pw iw nk) (bytes : List Byte) : (s.loadRegs bytes).stack = s.stack := by simp only [State.loadRegs]
@[simp] theorem State.loadRegs_mem (s : State nr rw pw iw nk) (bytes : List Byte) : (s.loadRegs bytes).mem = s.mem := by simp only [State.loadRegs]
@[simp] theorem State.loadRegs_disp (s : State nr rw pw iw nk) (bytes : List Byte) : (s.loadRegs bytes).disp = s.disp := by simp only [State.loadRegs]
@[simp] theorem State.loadRegs_key (s : State nr rw pw iw nk) (bytes : List Byte) : (s.loadRegs bytes).key = s.key := by simp only [State.loadRegs]
@[simp] theorem State.loadRegs_timerValue (s : State nr rw pw iw nk) (bytes : List Byte) :
    (s.loadRegs bytes).timerValue = s.timerValue := by simp only [State.loadRegs]
@[simp] theorem State.loadRegs_timerInstant (s : State nr rw pw iw nk) (bytes : List Byte) :
    (s.loadRegs bytes).timerInstant = s.timerInstant := by simp only [State.loadRegs]
@[simp] theorem State.loadRegs_waitX (s : State nr rw pw iw nk) (bytes : List Byte) : (s.loadRegs bytes).waitX = s.waitX := by simp only [State.loadRegs]
@[simp] theorem State.loadRegs_status (s : State nr rw pw iw nk) (bytes : List Byte) : (s.loadRegs bytes).status = s.status := by simp only [State.loadRegs]
@[simp] theorem State.loadRegs_now (s : State nr rw pw iw nk) (bytes : List Byte) : (s.loadRegs bytes).now = s.now := by simp only [State.loadRegs]
@[simp] theorem State.loadRegs_rand (s : State nr rw pw iw nk) (bytes : List Byte) : (s.loadRegs bytes).rand = s.rand := by simp only [State.loadRegs]
@[simp] theorem State.loadRegs_host (s : State nr rw pw iw nk) (bytes : List Byte) : (s.loadRegs bytes).host = s.host := by simp only [State.loadRegs]
@[simp] theorem State.loadRegs_draws (s : State nr rw pw iw nk) (bytes : List Byte) : (s.loadRegs bytes).draws = s.draws := by simp only [State.loadRegs]

/-! ### enterFault -/

@[simp] theorem State.enterFault_params (s : State nr rw pw iw nk) (code : FaultCode) (op : Option Word) (addr : Option Nat) :
    (s.enterFault code op addr).params = s.params := rfl
@[simp] theorem State.enterFault_v (s : State nr rw pw iw nk) (code : FaultCode) (op : Option Word) (addr : Option Nat) :
    (s.enterFault code op addr).v = s.v := rfl
@[simp] theorem State.enterFault_i (s : State nr rw pw iw nk) (code : FaultCode) (op : Option Word) (addr : Option Nat) :
    (s.enterFault code op addr).i = s.i := rfl
@[simp] theorem State.enterFault_pc (s : State nr rw pw iw nk) (code : FaultCode) (op : Option Word) (addr : Option Nat) :
    (s.enterFault code op addr).pc = s.pc := rfl
@[simp] theorem State.enterFault_stack (s : State nr rw pw iw nk) (code : FaultCode) (op : Option Word) (addr : Option Nat) :
    (s.enterFault code op addr).stack = s.stack := rfl
@[simp] theorem State.enterFault_mem (s : State nr rw pw iw nk) (code : FaultCode) (op : Option Word) (addr : Option Nat) :
    (s.enterFault code op addr).mem = s.mem := rfl
@[simp] theorem State.enterFault_disp (s : State nr rw pw iw nk) (code : FaultCode) (op : Option Word) (addr : Option Nat) :
    (s.enterFault code op addr).disp = s.disp := rfl
@[simp] theorem State.enterFault_key (s : State nr rw pw iw nk) (code : FaultCode) (op : Option Word) (addr : Option Nat) :
    (s.enterFault code op addr).key = s.key := rfl
@[simp] theorem State.enterFault_timerValue (s : State nr rw pw iw nk) (code : FaultCode) (op : Option Word) (addr : Option Nat) :
    (s.enterFault code op addr).timerValue = s.timerValue := rfl
@[simp] theorem State.enterFault_timerInstant (s : State nr rw pw iw nk) (code : FaultCode) (op : Option Word) (addr : Option Nat) :
    (s.enterFault code op addr).timerInstant = s.timerInstant := rfl
@[simp] theorem State.enterFault_waitX (s : State nr rw pw iw nk) (code : FaultCode) (op : Option Word) (addr : Option Nat) :
    (s.enterFault code op addr).waitX = s.waitX := rfl
@[simp] theorem State.enterFault_status (s : State nr rw pw iw nk) (code : FaultCode) (op : Option Word) (addr : Option Nat) :
    (s.enterFault code op addr).status = .faulted ⟨code, s.pc, op, addr⟩ := rfl
@[simp] theorem State.enterFault_now (s : State nr rw pw iw nk) (code : FaultCode) (op : Option Word) (addr : Option Nat) :
    (s.enterFault code op addr).now = s.now := rfl
@[simp] theorem State.enterFault_rand (s : State nr rw pw iw nk) (code : FaultCode) (op : Option Word) (addr : Option Nat) :
    (s.enterFault code op addr).rand = s.rand := rfl
@[simp] theorem State.enterFault_host (s : State nr rw pw iw nk) (code : FaultCode) (op : Option Word) (addr : Option Nat) :
    (s.enterFault code op addr).host = s.host := rfl
@[simp] theorem State.enterFault_draws (s : State nr rw pw iw nk) (code : FaultCode) (op : Option Word) (addr : Option Nat) :
    (s.enterFault code op addr).draws = s.draws := rfl

/-! ### timerSet -/

@[simp] theorem State.timerSet_params (s : State nr rw pw iw nk) (b : Byte) : (s.timerSet b).params = s.params := rfl
@[simp] theorem State.timerSet_v (s : State nr rw pw iw nk) (b : Byte) : (s.timerSet b).v = s.v := rfl
@[simp] theorem State.timerSet_i (s : State nr rw pw iw nk) (b : Byte) : (s.timerSet b).i = s.i := rfl
@[simp] theorem State.timerSet_pc (s : State nr rw pw iw nk) (b : Byte) : (s.timerSet b).pc = s.pc := rfl
@[simp] theorem State.timerSet_stack (s : State nr rw pw iw nk) (b : Byte) : (s.timerSet b).stack = s.stack := rfl
@[simp] theorem State.timerSet_mem (s : State nr rw pw iw nk) (b : Byte) : (s.timerSet b).mem = s.mem := rfl
@[simp] theorem State.timerSet_disp (s : State nr rw pw iw nk) (b : Byte) : (s.timerSet b).disp = s.disp := rfl
@[simp] theorem State.timerSet_key (s : State nr rw pw iw nk) (b : Byte) : (s.timerSet b).key = s.key := rfl
@[simp] theorem State.timerSet_timerValue (s : State nr rw pw iw nk) (b : Byte) : (s.timerSet b).timerValue = b := rfl
@[simp] theorem State.timerSet_timerInstant (s : State nr rw pw iw nk) (b : Byte) : (s.timerSet b).timerInstant = s.now := rfl
@[simp] theorem State.timerSet_waitX (s : State nr rw pw iw nk) (b : Byte) : (s.timerSet b).waitX = s.waitX := rfl
@[simp] theorem State.timerSet_status (s : State nr rw pw iw nk) (b : Byte) : (s.timerSet b).status = s.status := rfl
@[simp] theorem State.timerSet_now (s : State nr rw pw iw nk) (b : Byte) : (s.timerSet b).now = s.now := rfl
@[simp] theorem State.timerSet_rand (s : State nr rw pw iw nk) (b : Byte) : (s.timerSet b).rand = s.rand := rfl
@[simp] theorem State.timerSet_host (s : State nr rw pw iw nk) (b : Byte) : (s.timerSet b).host = s.host := rfl
@[simp] theorem State.timerSet_draws (s : State nr rw pw iw nk) (b : Byte) : (s.timerSet b).draws = s.draws := rfl

/-! ### takeKey -/

@[simp] theorem State.takeKey_params (s : State nr rw pw iw nk) (x : Fin nr) (k : Fin nk) : (s.takeKey x k).params = s.params := rfl
@[simp] theorem State.takeKey_v (s : State nr rw pw iw nk) (x : Fin nr) (k : Fin nk) :
    (s.takeKey x k).v = s.v.set x.val (BitVec.ofNat rw k.val) := rfl
@[simp] theorem State.takeKey_i (s : State nr rw pw iw nk) (x : Fin nr) (k : Fin nk) : (s.takeKey x k).i = s.i := rfl
@[simp] theorem State.takeKey_pc (s : State nr rw pw iw nk) (x : Fin nr) (k : Fin nk) : (s.takeKey x k).pc = s.pc + 2 := rfl
@[simp] theorem State.takeKey_stack (s : State nr rw pw iw nk) (x : Fin nr) (k : Fin nk) : (s.takeKey x k).stack = s.stack := rfl
@[simp] theorem State.takeKey_mem (s : State nr rw pw iw nk) (x : Fin nr) (k : Fin nk) : (s.takeKey x k).mem = s.mem := rfl
@[simp] theorem State.takeKey_disp (s : State nr rw pw iw nk) (x : Fin nr) (k : Fin nk) : (s.takeKey x k).disp = s.disp := rfl
@[simp] theorem State.takeKey_key (s : State nr rw pw iw nk) (x : Fin nr) (k : Fin nk) : (s.takeKey x k).key = s.key := rfl
@[simp] theorem State.takeKey_timerValue (s : State nr rw pw iw nk) (x : Fin nr) (k : Fin nk) :
    (s.takeKey x k).timerValue = s.timerValue := rfl
@[simp] theorem State.takeKey_timerInstant (s : State nr rw pw iw nk) (x : Fin nr) (k : Fin nk) :
    (s.takeKey x k).timerInstant = s.timerInstant := rfl
@[simp] theorem State.takeKey_waitX (s : State nr rw pw iw nk) (x : Fin nr) (k : Fin nk) : (s.takeKey x k).waitX = none := rfl
@[simp] theorem State.takeKey_status (s : State nr rw pw iw nk) (x : Fin nr) (k : Fin nk) : (s.takeKey x k).status = s.status := rfl
@[simp] theorem State.takeKey_now (s : State nr rw pw iw nk) (x : Fin nr) (k : Fin nk) : (s.takeKey x k).now = s.now := rfl
@[simp] theorem State.takeKey_rand (s : State nr rw pw iw nk) (x : Fin nr) (k : Fin nk) : (s.takeKey x k).rand = s.rand := rfl
@[simp] theorem State.takeKey_host (s : State nr rw pw iw nk) (x : Fin nr) (k : Fin nk) : (s.takeKey x k).host = s.host := rfl
@[simp] theorem State.takeKey_draws (s : State nr rw pw iw nk) (x : Fin nr) (k : Fin nk) : (s.takeKey x k).draws = s.draws := rfl

/-! ### setPressed -/

@[simp] theorem State.setPressed_params (s : State nr rw pw iw nk) (k : Option (Fin nk)) : (s.setPressed k).params = s.params := rfl
@[simp] theorem State.setPressed_v (s : State nr rw pw iw nk) (k : Option (Fin nk)) : (s.setPressed k).v = s.v := rfl
@[simp] theorem State.setPressed_i (s : State nr rw pw iw nk) (k : Option (Fin nk)) : (s.setPressed k).i = s.i := rfl
@[simp] theorem State.setPressed_pc (s : State nr rw pw iw nk) (k : Option (Fin nk)) : (s.setPressed k).pc = s.pc := rfl
@[simp] theorem State.setPressed_stack (s : State nr rw pw iw nk) (k : Option (Fin nk)) : (s.setPressed k).stack = s.stack := rfl
@[simp] theorem State.setPressed_mem (s : State nr rw pw iw nk) (k : Option (Fin nk)) : (s.setPressed k).mem = s.mem := rfl
@[simp] theorem State.setPressed_disp (s : State nr rw pw iw nk) (k : Option (Fin nk)) : (s.setPressed k).disp = s.disp := rfl
@[simp] theorem State.setPressed_key (s : State nr rw pw iw nk) (k : Option (Fin nk)) : (s.setPressed k).key = k := rfl
@[simp] theorem State.setPressed_timerValue (s : State nr rw pw iw nk) (k : Option (Fin nk)) :
    (s.setPressed k).timerValue = s.timerValue := rfl
@[simp] theorem State.setPressed_timerInstant (s : State nr rw pw iw nk) (k : Option (Fin nk)) :
    (s.setPressed k).timerInstant = s.timerInstant := rfl
@[simp] theorem State.setPressed_waitX (s : State nr rw pw iw nk) (k : Option (Fin nk)) : (s.setPressed k).waitX = s.waitX := rfl
@[simp] theorem State.setPressed_status (s : State nr rw pw iw nk) (k : Option (Fin nk)) : (s.setPressed k).status = s.status := rfl
@[simp] theorem State.setPressed_now (s : State nr rw pw iw nk) (k : Option (Fin nk)) : (s.setPressed k).now = s.now := rfl
@[simp] theorem State.setPressed_rand (s : State nr rw pw iw nk) (k : Option (Fin nk)) : (s.setPressed k).rand = s.rand := rfl
@[simp] theorem State.setPressed_host (s : State nr rw pw iw nk) (k : Option (Fin nk)) : (s.setPressed k).host = s.host := rfl
@[simp] theorem State.setPressed_draws (s : State nr rw pw iw nk) (k : Option (Fin nk)) : (s.setPressed k).draws = s.draws := rfl

/-! ### takeHostInput -/

@[simp] theorem State.takeHostInput_params (s : State nr rw pw iw nk) : (s.takeHostInput).params = s.params := rfl
@[simp] theorem State.takeHostInput_v (s : State nr rw pw iw nk) : (s.takeHostInput).v = s.v := rfl
@[simp] theorem State.takeHostInput_i (s : State nr rw pw iw nk) : (s.takeHostInput).i = s.i := rfl
@[simp] theorem State.takeHostInput_pc (s : State nr rw pw iw nk) : (s.takeHostInput).pc = s.pc := rfl
@[simp] theorem State.takeHostInput_stack (s : State nr rw pw iw nk) : (s.takeHostInput).stack = s.stack := rfl
@[simp] theorem State.takeHostInput_mem (s : State nr rw pw iw nk) : (s.takeHostInput).mem = s.mem := rfl
@[simp] theorem State.takeHostInput_disp (s : State nr rw pw iw nk) : (s.takeHostInput).disp = s.disp := rfl
@[simp] theorem State.takeHostInput_key (s : State nr rw pw iw nk) :
    (s.takeHostInput).key = s.nextHostInput.setPressed.getD s.key := rfl
@[simp] theorem State.takeHostInput_timerValue (s : State nr rw pw iw nk) : (s.takeHostInput).timerValue = s.timerValue := rfl
@[simp] theorem State.takeHostInput_timerInstant (s : State nr rw pw iw nk) : (s.takeHostInput).timerInstant = s.timerInstant := rfl
@[simp] theorem State.takeHostInput_waitX (s : State nr rw pw iw nk) : (s.takeHostInput).waitX = s.waitX := rfl
@[simp] theorem State.takeHostInput_status (s : State nr rw pw iw nk) : (s.takeHostInput).status = s.status := rfl
@[simp] theorem State.takeHostInput_now (s : State nr rw pw iw nk) : (s.takeHostInput).now = s.now + s.nextHostInput.elapsed := rfl
@[simp] theorem State.takeHostInput_rand (s : State nr rw pw iw nk) : (s.takeHostInput).rand = s.nextHostInput.rand := rfl
@[simp] theorem State.takeHostInput_host (s : State nr rw pw iw nk) : (s.takeHostInput).host = s.host.tail := rfl
@[simp] theorem State.takeHostInput_draws (s : State nr rw pw iw nk) : (s.takeHostInput).draws = s.draws + 1 := rfl

/-! ### Registers -/

@[simp] theorem State.setV_v (s : State nr rw pw iw nk) (x : Fin nr) (b : BitVec rw) : (s.setV x b).v = s.v.set x.val b := rfl

theorem State.getV_setV (s : State nr rw pw iw nk) (x k : Fin nr) (b : BitVec rw) : (s.setV x b).getV k = if k = x then b else s.getV k := by
  unfold State.getV
  rw [State.setV_v]
  by_cases h : k = x
  · subst h; simp
  · rw [Vector.getElem_set_ne (h := fun e => h (Fin.ext e.symm))]
    simp [h]

@[simp] theorem State.getV_setV_self (s : State nr rw pw iw nk) (x : Fin nr) (b : BitVec rw) : (s.setV x b).getV x = b := by
  simp [State.getV_setV]

theorem State.getV_setV_of_ne {s : State nr rw pw iw nk} {x k : Fin nr} (b : BitVec rw) (h : k ≠ x) : (s.setV x b).getV k = s.getV k := by
  simp [State.getV_setV, h]

@[simp] theorem State.getV_setI (s : State nr rw pw iw nk) (a : BitVec iw) (k : Fin nr) : (s.setI a).getV k = s.getV k := rfl
@[simp] theorem State.getV_setPc (s : State nr rw pw iw nk) (a : BitVec pw) (k : Fin nr) : (s.setPc a).getV k = s.getV k := rfl
@[simp] theorem State.getV_advance (s : State nr rw pw iw nk) (k : Fin nr) : s.advance.getV k = s.getV k := rfl
@[simp] theorem State.getV_skipIf (s : State nr rw pw iw nk) (c : Bool) (k : Fin nr) : (s.skipIf c).getV k = s.getV k := rfl
@[simp] theorem State.getV_timerSet (s : State nr rw pw iw nk) (b : Byte) (k : Fin nr) : (s.timerSet b).getV k = s.getV k := rfl
@[simp] theorem State.getV_takeHostInput (s : State nr rw pw iw nk) (k : Fin nr) : s.takeHostInput.getV k = s.getV k := rfl

/-! ### Memory and display as the machine reads them: only their writers change them -/

@[simp] theorem State.byteAt_setV (s : State nr rw pw iw nk) (x : Fin nr) (b : BitVec rw) (k : Nat) :
    (s.setV x b).byteAt k = s.byteAt k := rfl
@[simp] theorem State.byteAt_setI (s : State nr rw pw iw nk) (a : BitVec iw) (k : Nat) :
    (s.setI a).byteAt k = s.byteAt k := rfl
@[simp] theorem State.byteAt_setPc (s : State nr rw pw iw nk) (a : BitVec pw) (k : Nat) :
    (s.setPc a).byteAt k = s.byteAt k := rfl
@[simp] theorem State.byteAt_advance (s : State nr rw pw iw nk) (k : Nat) :
    (s.advance).byteAt k = s.byteAt k := rfl
@[simp] theorem State.byteAt_skipIf (s : State nr rw pw iw nk) (c : Bool) (k : Nat) :
    (s.skipIf c).byteAt k = s.byteAt k := rfl
@[simp] theorem State.byteAt_timerSet (s : State nr rw pw iw nk) (b : Byte) (k : Nat) :
    (s.timerSet b).byteAt k = s.byteAt k := rfl
@[simp] theorem State.byteAt_takeKey (s : State nr rw pw iw nk) (x : Fin nr) (c : Fin nk) (k : Nat) :
    (s.takeKey x c).byteAt k = s.byteAt k := rfl
@[simp] theorem State.byteAt_takeHostInput (s : State nr rw pw iw nk) (k : Nat) :
    (s.takeHostInput).byteAt k = s.byteAt k := rfl
@[simp] theorem State.byteAt_enterFault (s : State nr rw pw iw nk) (code : FaultCode) (op : Option Word) (addr : Option Nat) (k : Nat) :
    (s.enterFault code op addr).byteAt k = s.byteAt k := rfl
@[simp] theorem State.byteAt_loadRegs (s : State nr rw pw iw nk) (bytes : List Byte) (k : Nat) :
    (s.loadRegs bytes).byteAt k = s.byteAt k := by simp only [State.loadRegs, State.byteAt]

@[simp] theorem State.pixel_setV (s : State nr rw pw iw nk) (x : Fin nr) (b : BitVec rw) (px py : Nat) :
    (s.setV x b).pixel px py = s.pixel px py := rfl
@[simp] theorem State.pixel_setI (s : State nr rw pw iw nk) (a : BitVec iw) (px py : Nat) :
    (s.setI a).pixel px py = s.pixel px py := rfl
@[simp] theorem State.pixel_setPc (s : State nr rw pw iw nk) (a : BitVec pw) (px py : Nat) :
    (s.setPc a).pixel px py = s.pixel px py := rfl
@[simp] theorem State.pixel_advance (s : State nr rw pw iw nk) (px py : Nat) :
    (s.advance).pixel px py = s.pixel px py := rfl
@[simp] theorem State.pixel_skipIf (s : State nr rw pw iw nk) (c : Bool) (px py : Nat) :
    (s.skipIf c).pixel px py = s.pixel px py := rfl
@[simp] theorem State.pixel_timerSet (s : State nr rw pw iw nk) (b : Byte) (px py : Nat) :
    (s.timerSet b).pixel px py = s.pixel px py := rfl
@[simp] theorem State.pixel_takeKey (s : State nr rw pw iw nk) (x : Fin nr) (c : Fin nk) (px py : Nat) :
    (s.takeKey x c).pixel px py = s.pixel px py := rfl
@[simp] theorem State.pixel_takeHostInput (s : State nr rw pw iw nk) (px py : Nat) :
    (s.takeHostInput).pixel px py = s.pixel px py := rfl
@[simp] theorem State.pixel_enterFault (s : State nr rw pw iw nk) (code : FaultCode) (op : Option Word) (addr : Option Nat) (px py : Nat) :
    (s.enterFault code op addr).pixel px py = s.pixel px py := rfl
@[simp] theorem State.pixel_loadRegs (s : State nr rw pw iw nk) (bytes : List Byte) (px py : Nat) :
    (s.loadRegs bytes).pixel px py = s.pixel px py := by simp only [State.loadRegs, State.pixel]

/-- A block load writes exactly the registers the byte list reaches (R215). -/
theorem State.getV_loadRegs (s : State nr rw pw iw nk) (bytes : List Byte) (k : Fin nr) :
    (s.loadRegs bytes).getV k = ((bytes[k.val]?).map (·.setWidth rw)).getD (s.getV k) := by
  simp [State.getV, State.loadRegs]

/-- The stored block is V0 to Vx in order (R214). -/
theorem State.length_regsUpTo (s : State nr rw pw iw nk) (x : Fin nr) : (s.regsUpTo x).length = x.val + 1 := by
  have := x.isLt
  simp [State.regsUpTo, blockLength]

theorem State.getElem_regsUpTo (s : State nr rw pw iw nk) (x k : Fin nr) (h : k.val < (s.regsUpTo x).length) :
    (s.regsUpTo x)[k.val] = (s.getV k).setWidth 8 := by
  simp [State.regsUpTo, State.getV]

end Sys2Proof.Machine
end

