-- ==== Sys2Proof/Laws/Memory.lean ====
section
/-! SUPPORT. Memory: what a byte reads as after a write, and that every memory operation keeps the canonical form
(spec/20_memory.md R70 to R73, R83, R88). -/

namespace Sys2Proof.Machine

variable {nr rw pw iw nk : Nat}

/-! ### Taking an entry out and putting one in -/

theorem Memory.read_of_no_entry {m : Memory} {a : Nat} {p : Params} (h : ∀ c ∈ m, c.1 ≠ a) : m.read p a = unlistedByte p a := by
  induction m with
  | nil => rfl
  | cons c m ih =>
    obtain ⟨k, b⟩ := c
    have hk : k ≠ a := h (k, b) (by simp)
    simp only [Memory.read, if_neg hk]
    exact ih fun c hc => h c (by simp [hc])

theorem Memory.no_entry_dropAt (m : Memory) (a : Nat) : ∀ c ∈ m.dropAt a, c.1 ≠ a := by
  intro c hc
  simpa [Memory.dropAt] using (List.mem_filter.mp hc).2

theorem Memory.read_dropAt (m : Memory) (p : Params) (a c : Nat) : (m.dropAt a).read p c = if c = a then unlistedByte p a else m.read p c := by
  by_cases hca : c = a
  · rw [if_pos hca, hca]
    exact Memory.read_of_no_entry (Memory.no_entry_dropAt m a)
  · rw [if_neg hca]
    induction m with
    | nil => rfl
    | cons e m ih =>
      obtain ⟨k, b⟩ := e
      by_cases hk : k = a
      · have hkc : k ≠ c := fun e => hca (e.symm.trans hk)
        have he : Memory.dropAt ((k, b) :: m) a = Memory.dropAt m a := by simp [Memory.dropAt, hk]
        rw [he, ih]
        simp [Memory.read, hkc]
      · have he : Memory.dropAt ((k, b) :: m) a = (k, b) :: Memory.dropAt m a := by simp [Memory.dropAt, hk]
        rw [he]
        simp only [Memory.read, ih]

theorem Memory.read_putAt {m : Memory} {p : Params} {a : Nat} (h : ∀ e ∈ m, e.1 ≠ a) (b : Byte) (c : Nat) :
    (m.putAt a b).read p c = if c = a then b else m.read p c := by
  induction m with
  | nil =>
    by_cases hca : c = a
    · simp [Memory.putAt, Memory.read, hca]
    · have : a ≠ c := fun e => hca e.symm
      simp [Memory.putAt, Memory.read, hca, this]
  | cons e m ih =>
    obtain ⟨k, d⟩ := e
    have hk : k ≠ a := h (k, d) (by simp)
    have ih' := ih fun e he => h e (by simp [he])
    by_cases hca : c = a
    · rw [hca] at ih' ⊢
      by_cases hlt : a < k <;> simp [Memory.putAt, Memory.read, hlt, hk, ih']
    · have hac : a ≠ c := fun e => hca e.symm
      by_cases hlt : a < k <;> simp [Memory.putAt, Memory.read, hlt, hca, hac, ih']

/-- A read after a write: the byte written at its address, the old byte at every other. It needs no canonical form. -/
theorem Memory.read_write (m : Memory) (p : Params) (a c : Nat) (b : Byte) :
    (m.write p a b).read p c = if c = a then b else m.read p c := by
  by_cases hb : b = unlistedByte p a
  · rw [Memory.write, if_pos hb, Memory.read_dropAt, hb]
  · rw [Memory.write, if_neg hb, Memory.read_putAt (Memory.no_entry_dropAt m a), Memory.read_dropAt]
    by_cases hca : c = a <;> simp [hca]

@[simp] theorem Memory.read_write_self (m : Memory) (p : Params) (a : Nat) (b : Byte) : (m.write p a b).read p a = b := by
  simp [Memory.read_write]

/-! ### The canonical form -/

theorem Memory.mem_putAt {m : Memory} {a : Nat} {b : Byte} {e : Host.Cell} :
    e ∈ m.putAt a b ↔ e = (a, b) ∨ e ∈ m := by
  induction m with
  | nil => simp [Memory.putAt]
  | cons c m ih =>
    obtain ⟨k, d⟩ := c
    by_cases hlt : a < k
    · simp [Memory.putAt, hlt]
    · simp only [Memory.putAt, if_neg hlt, List.mem_cons, ih]
      tauto

theorem Memory.pairwise_putAt {m : Memory} {a : Nat} (b : Byte) (hm : m.Pairwise fun c d => c.1 < d.1)
    (h : ∀ e ∈ m, e.1 ≠ a) : (m.putAt a b).Pairwise fun c d => c.1 < d.1 := by
  induction m with
  | nil => simp [Memory.putAt]
  | cons e m ih =>
    obtain ⟨k, d⟩ := e
    have hk : k ≠ a := h (k, d) (by simp)
    obtain ⟨hhead, htail⟩ := List.pairwise_cons.mp hm
    by_cases hlt : a < k
    · simp only [Memory.putAt, if_pos hlt]
      refine List.pairwise_cons.mpr ⟨?_, hm⟩
      intro c hc
      rcases List.mem_cons.mp hc with rfl | hc
      · exact hlt
      · exact Nat.lt_trans hlt (hhead c hc)
    · simp only [Memory.putAt, if_neg hlt]
      refine List.pairwise_cons.mpr ⟨?_, ih htail fun e he => h e (by simp [he])⟩
      intro c hc
      rcases Memory.mem_putAt.mp hc with rfl | hc
      · simp only; omega
      · exact hhead c hc

theorem Memory.wf_nil (p : Params) : Memory.wf [] p := by simp [Memory.wf]

theorem Memory.wf_dropAt {m : Memory} {p : Params} (a : Nat) (h : m.wf p) : (m.dropAt a).wf p :=
  ⟨h.1.filter _, fun c hc => h.2 c (List.mem_filter.mp hc).1⟩

/-- Writing a byte at a legal address keeps the canonical form. -/
theorem Memory.wf_write {m : Memory} {p : Params} {a : Nat} (b : Byte) (h : m.wf p) (ha : a < p.memSize) :
    (m.write p a b).wf p := by
  have he := Memory.wf_dropAt a h
  by_cases hb : b = unlistedByte p a
  · rw [Memory.write, if_pos hb]; exact he
  · rw [Memory.write, if_neg hb]
    refine ⟨Memory.pairwise_putAt b he.1 (Memory.no_entry_dropAt m a), fun c hc => ?_⟩
    rcases Memory.mem_putAt.mp hc with rfl | hc
    · exact ⟨ha, hb⟩
    · exact he.2 c hc

/-! ### Blocks -/

/-- A block write: the bytes at their ascending addresses, the old byte elsewhere. -/
theorem Memory.read_writeAll (m : Memory) (p : Params) (a : Nat) (bs : List Byte) (c : Nat) :
    (m.writeAll p a bs).read p c = if a ≤ c then (bs[c - a]?).getD (m.read p c) else m.read p c := by
  induction bs generalizing m a with
  | nil => simp [Memory.writeAll]
  | cons b bs ih =>
    rw [Memory.writeAll, ih, Memory.read_write]
    by_cases hc : c = a
    · subst hc; simp
    · by_cases hle : a + 1 ≤ c
      · obtain ⟨k, rfl⟩ : ∃ k, c = a + 1 + k := ⟨c - (a + 1), by omega⟩
        have h1 : a + 1 + k - a = k + 1 := by omega
        have h2 : a + 1 + k - (a + 1) = k := by omega
        have h3 : a ≤ a + 1 + k := by omega
        simp [hc, h1, h2, h3]
      · have : ¬ a ≤ c := by omega
        simp [hc, hle, this]

theorem Memory.wf_writeAll {m : Memory} {p : Params} {a : Nat} {bs : List Byte} (h : m.wf p) (ha : a + bs.length ≤ p.memSize) :
    (m.writeAll p a bs).wf p := by
  induction bs generalizing m a with
  | nil => exact h
  | cons b bs ih =>
    simp only [List.length_cons] at ha
    exact ih (Memory.wf_write b h (by omega)) (by omega)

/-! ### The bus operations -/

theorem State.memRead_eq (s : State nr rw pw iw nk) (a : Nat) :
    s.memRead a = if a < s.params.memSize then .ok (s.byteAt a) else .error a := rfl

theorem State.memWrite_eq (s : State nr rw pw iw nk) (a : Nat) (b : Byte) :
    s.memWrite a b = if a < s.params.memSize then .ok { s with mem := s.mem.write s.params a b } else .error a := rfl

/-- All a block read can do: every byte, or the lowest out-of-bounds address of the block (R302). -/
theorem State.memReads_eq (s : State nr rw pw iw nk) (a n : Nat) :
    s.memReads a n =
      if n = 0 ∨ a + n ≤ s.params.memSize then .ok ((List.range n).map fun k => s.byteAt (a + k))
      else .error (max a s.params.memSize) := by
  induction n generalizing a with
  | zero => simp [State.memReads]
  | succ n ih =>
    by_cases ha : a < s.params.memSize
    · simp only [State.memReads, State.memRead_eq, if_pos ha, ih]
      by_cases hn : n = 0 ∨ a + 1 + n ≤ s.params.memSize
      · have h2 : a + (n + 1) ≤ s.params.memSize := by omega
        rw [if_pos hn, if_pos (Or.inr h2), List.range_succ_eq_map]
        simp [Function.comp_def, Nat.add_assoc, Nat.add_comm 1]
      · have h2 : ¬ (n + 1 = 0 ∨ a + (n + 1) ≤ s.params.memSize) := by omega
        have h3 : max (a + 1) s.params.memSize = max a s.params.memSize := by omega
        rw [if_neg hn, if_neg h2, h3]
    · have h2 : ¬ (n + 1 = 0 ∨ a + (n + 1) ≤ s.params.memSize) := by omega
      have h3 : max a s.params.memSize = a := by omega
      simp only [State.memReads, State.memRead_eq, if_neg ha, if_neg h2, h3]

/-- All a block write can do: the whole block and nothing else, or the lowest out-of-bounds address of the block (R302). -/
theorem State.memWrites_eq (s : State nr rw pw iw nk) (a : Nat) (bs : List Byte) :
    s.memWrites a bs =
      if bs = [] ∨ a + bs.length ≤ s.params.memSize then .ok { s with mem := s.mem.writeAll s.params a bs }
      else .error (max a s.params.memSize) := by
  induction bs generalizing s a with
  | nil => simp [State.memWrites, Memory.writeAll]
  | cons b bs ih =>
    by_cases ha : a < s.params.memSize
    · simp only [State.memWrites, State.memWrite_eq, if_pos ha, ih, List.length_cons]
      by_cases hn : bs = [] ∨ a + 1 + bs.length ≤ s.params.memSize
      · have h2 : a + (bs.length + 1) ≤ s.params.memSize := by
          rcases hn with rfl | hn
          · simpa using ha
          · omega
        rw [if_pos hn, if_pos (Or.inr h2)]
        rfl
      · have hne : bs.length ≠ 0 := fun e => hn (Or.inl (List.length_eq_zero_iff.mp e))
        have h2 : ¬ (b :: bs = [] ∨ a + (bs.length + 1) ≤ s.params.memSize) := by
          rintro (h | h)
          · cases h
          · exact hn (Or.inr (by omega))
        have h3 : max (a + 1) s.params.memSize = max a s.params.memSize := by
          have : a + 1 ≤ s.params.memSize := ha
          omega
        rw [if_neg hn, if_neg h2, h3]
    · have h2 : ¬ (b :: bs = [] ∨ a + (bs.length + 1) ≤ s.params.memSize) := by
        rintro (h | h)
        · cases h
        · omega
      have h3 : max a s.params.memSize = a := by omega
      simp only [State.memWrites, State.memWrite_eq, if_neg ha, List.length_cons, if_neg h2, h3]

/-- All a fetch can do: the big-endian opcode, or the first out-of-bounds address of the two (R141). -/
theorem State.fetch_eq (s : State nr rw pw iw nk) :
    s.fetch =
      if s.pc.toNat + 2 ≤ s.params.memSize then .ok (opcodeOfBytes (s.byteAt s.pc.toNat) (s.byteAt (s.pc.toNat + 1)))
      else .error (max s.pc.toNat s.params.memSize) := by
  by_cases h0 : s.pc.toNat < s.params.memSize
  · by_cases h1 : s.pc.toNat + 1 < s.params.memSize
    · have h2 : s.pc.toNat + 2 ≤ s.params.memSize := h1
      simp [State.fetch, State.memRead_eq, h0, h1, h2]
    · have h2 : ¬ s.pc.toNat + 2 ≤ s.params.memSize := h1
      have h3 : max s.pc.toNat s.params.memSize = s.pc.toNat + 1 := by omega
      simp [State.fetch, State.memRead_eq, h0, h1, h2, h3]
  · have h2 : ¬ s.pc.toNat + 2 ≤ s.params.memSize := by omega
    have h3 : max s.pc.toNat s.params.memSize = s.pc.toNat := by omega
    simp [State.fetch, State.memRead_eq, h0, h2, h3]

end Sys2Proof.Machine
end

