-- ==== Sys2Proof/Laws/Ops.lean ====
section
/-! SUPPORT. What each remaining shared operation can do, said once: the call stack, the keyboard, the timer, the sprite as the
draw reads it, and the boundaries of the step. -/

namespace Sys2Proof.Machine

variable {nr rw pw iw nk : Nat}

/-! ### Call stack -/

/-- All a push can do: the new top, or nothing on a stack at its capacity (R144). -/
theorem State.push_eq (s : State nr rw pw iw nk) (a : BitVec pw) :
    s.push a = if s.params.stackCapacity = some s.stack.length then none else some { s with stack := s.stack ++ [a] } := rfl

theorem State.pop_nil {s : State nr rw pw iw nk} (h : s.stack = []) : s.pop = none := by simp [State.pop, h]

/-- Popping takes the last entry off (R145). -/
theorem State.pop_concat {s : State nr rw pw iw nk} {st : List (BitVec pw)} {a : BitVec pw} (h : s.stack = st ++ [a]) :
    s.pop = some (a, { s with stack := st }) := by
  simp [State.pop, h]

/-! ### Keyboard -/

theorem State.isPressed_iff (s : State nr rw pw iw nk) (b : BitVec rw) : s.isPressed b = true ↔ ∃ k, s.key = some k ∧ k.val = b.toNat := by
  unfold State.isPressed
  cases s.key <;> simp

theorem State.keyWaitPoll_none {s : State nr rw pw iw nk} (x : Fin nr) (h : s.key = none) :
    s.keyWaitPoll x = { s with waitX := some x } := by
  simp [State.keyWaitPoll, h]

theorem State.keyWaitPoll_some {s : State nr rw pw iw nk} (x : Fin nr) {k : Fin nk} (h : s.key = some k) :
    s.keyWaitPoll x = s.takeKey x k := by
  simp [State.keyWaitPoll, h]

/-! ### Timer -/

/-- The observed value never exceeds the set value, and is the set value less the whole ticks (R321). -/
theorem State.toNat_timerObserved (s : State nr rw pw iw nk) : s.timerObserved.toNat = s.timerValue.toNat - s.elapsedTicks := by
  have := s.timerValue.isLt
  have h : s.timerValue.toNat - s.elapsedTicks < 2 ^ 8 := by omega
  rw [State.timerObserved, BitVec.toNat_ofNat, Nat.mod_eq_of_lt h]

/-! ### The sprite a draw reads -/

/-- The bytes Dxyn reads, as the claims' `spriteCovers` sees them (R247). -/
theorem rowsCover_eq_spriteCovers {s : State} (hp : s.params.legal) (x y : RegIdx) (n : Nat) {px py : Nat} (hx : px < s.params.displayW)
    (hy : py < s.params.displayH) :
    rowsCover s.params (s.getV x).toNat (s.getV y).toNat ((List.range n).map fun k => s.byteAt (indexAddr s 0 + k)) px py
      = spriteCovers s x y n px py := by
  rw [Bool.eq_iff_iff, rowsCover_iff]
  simp only [spriteCovers, List.any_eq_true, List.mem_range, Bool.and_eq_true, beq_iff_eq, pixelIndex_eq_iff hp,
    Nat.mod_eq_of_lt hx, Nat.mod_eq_of_lt hy, List.length_map, List.length_range, List.getElem_map, List.getElem_range,
    indexAddr, Nat.add_zero]
  constructor
  · rintro ⟨r, hr, c, hc, hb, hpx, hpy⟩
    exact ⟨r, hr, c, hc, ⟨hb, hpx⟩, hpy⟩
  · rintro ⟨r, hr, c, hc, ⟨hb, hpx⟩, hpy⟩
    exact ⟨r, hr, c, hc, hb, hpx, hpy⟩

/-! ### The meanings that access memory: in bounds, or the lowest out-of-bounds address -/

/-- All Fx33 can do (R213). -/
theorem execLdB_eq (x : Fin nr) (s : State nr rw pw iw nk) :
    execLdB x s =
      if s.i.toNat + 3 ≤ s.params.memSize then
        .next { s with mem := s.mem.writeAll s.params s.i.toNat (bcdDigits (s.getV x)) }.advance
      else raiseOutOfBounds (packXNN 0xF x 0x33) (max s.i.toNat s.params.memSize) s := by
  have h : (bcdDigits (s.getV x) = [] ∨ indexAddr s 0 + (bcdDigits (s.getV x)).length ≤ s.params.memSize)
      ↔ s.i.toNat + 3 ≤ s.params.memSize := by simp [bcdDigits, indexAddr]
  simp only [execLdB, State.memWrites_eq, h]
  by_cases hb : s.i.toNat + 3 ≤ s.params.memSize
  · rw [if_pos hb, if_pos hb]; rfl
  · rw [if_neg hb, if_neg hb]; rfl

/-- All Fx55 can do (R214). -/
theorem execLdMemRegs_eq (x : Fin nr) (s : State nr rw pw iw nk) :
    execLdMemRegs x s =
      if s.i.toNat + x.val < s.params.memSize then
        .next ({ s with mem := s.mem.writeAll s.params s.i.toNat (s.regsUpTo x) }.setI
          (s.i + BitVec.ofNat iw (blockLength x))).advance
      else raiseOutOfBounds (packXNN 0xF x 0x55) (max s.i.toNat s.params.memSize) s := by
  have hl := s.length_regsUpTo x
  have h : (s.regsUpTo x = [] ∨ indexAddr s 0 + (s.regsUpTo x).length ≤ s.params.memSize)
      ↔ s.i.toNat + x.val < s.params.memSize := by
    rw [hl, ← List.length_eq_zero_iff, hl, indexAddr]
    omega
  simp only [execLdMemRegs, State.memWrites_eq, h]
  by_cases hb : s.i.toNat + x.val < s.params.memSize
  · rw [if_pos hb, if_pos hb]; rfl
  · rw [if_neg hb, if_neg hb]; rfl

/-- All Fx65 can do (R215). -/
theorem execLdRegsMem_eq (x : Fin nr) (s : State nr rw pw iw nk) :
    execLdRegsMem x s =
      if s.i.toNat + x.val < s.params.memSize then
        .next ((s.loadRegs ((List.range (blockLength x)).map fun k => s.byteAt (s.i.toNat + k))).setI
          (s.i + BitVec.ofNat iw (blockLength x))).advance
      else raiseOutOfBounds (packXNN 0xF x 0x65) (max s.i.toNat s.params.memSize) s := by
  have h : (blockLength x = 0 ∨ indexAddr s 0 + blockLength x ≤ s.params.memSize)
      ↔ s.i.toNat + x.val < s.params.memSize := by
    rw [indexAddr, blockLength]
    omega
  simp only [execLdRegsMem, State.memReads_eq, h]
  by_cases hb : s.i.toNat + x.val < s.params.memSize
  · rw [if_pos hb, if_pos hb]; rfl
  · rw [if_neg hb, if_neg hb]; rfl

/-- All Dxyn can do (R247). -/
theorem execDrw_eq [NeZero nr] (x y : Fin nr) (n : Nat) (s : State nr rw pw iw nk) :
    execDrw x y n s =
      if n = 0 ∨ s.i.toNat + n ≤ s.params.memSize then
        let drawn := s.disp.drawSprite s.params (s.getV x).toNat (s.getV y).toNat
          ((List.range n).map fun k => s.byteAt (indexAddr s 0 + k))
        .next ({ s with disp := drawn.1 }.setV vF (collisionFlag drawn.2)).advance
      else raiseOutOfBounds (packXYN 0xD x y (BitVec.ofNat 4 n)) (max s.i.toNat s.params.memSize) s := by
  have h : indexAddr s 0 = s.i.toNat := rfl
  simp only [execDrw, State.memReads_eq, h]
  by_cases hb : n = 0 ∨ s.i.toNat + n ≤ s.params.memSize
  · rw [if_pos hb, if_pos hb]
  · rw [if_neg hb, if_neg hb]

/-- The byte at the address of Vk in the block Fx55 stores (R214). -/
theorem State.read_block (s : State nr rw pw iw nk) (x k : Fin nr) (h : k ≤ x) :
    (s.mem.writeAll s.params s.i.toNat (s.regsUpTo x)).read s.params (s.i.toNat + k.val) = (s.getV k).setWidth 8 := by
  have hk : k.val < (s.regsUpTo x).length := by rw [s.length_regsUpTo]; exact Nat.lt_succ_of_le h
  rw [Memory.read_writeAll, if_pos (Nat.le_add_right ..), Nat.add_sub_cancel_left, List.getElem?_eq_getElem hk,
    s.getElem_regsUpTo]
  rfl

/-! ### The step -/

theorem State.fetch_takeHostInput (s : State nr rw pw iw nk) : s.takeHostInput.fetch = s.fetch := by
  rw [State.fetch_eq, State.fetch_eq]
  rfl

/-- A faulted machine does nothing (R303). -/
theorem runStep_faulted {s : State} {r : FaultRecord} (h : s.status = .faulted r) : runStep s = .next s := by
  simp [runStep, cycle, h]

/-- A waiting machine polls (R272). -/
theorem runStep_waiting {s : State} {x : RegIdx} (hr : s.status = .running) (hw : s.waitX = some x) :
    runStep s = .next (s.keyWaitPoll x) := by
  simp [runStep, cycle, hr, hw]

/-- A machine that neither faulted nor waits fetches, decodes and executes, or takes the first fault (R140, R302). -/
theorem runStep_fetching {s : State} (hr : s.status = .running) (hw : s.waitX = none) :
    runStep s =
      match s.fetch with
      | .error a => .next (s.enterFault .outOfBounds none (some a))
      | .ok op =>
        match decode op with
        | .error _ => .next (s.enterFault .decodeError (some op) none)
        | .ok i => exec i s := by
  simp only [runStep, cycle, hr, hw] <;> rfl

end Sys2Proof.Machine
end

