-- ==== Sys2Proof/Laws/PerInstr.lean ====
section
/-! SUPPORT. Family EncodesRow: for every instruction, its opcode selects its own row of the opcode map
(spec/30_encoding.md R104). -/

namespace Sys2Proof.Laws.EncodesRow

/-- The opcode of the instruction selects the instruction's row: `op AND mask = match` (R104). -/
def Statement (i : Instr) : Prop := i.row.selects (encode i) = true

/-- A mask that keeps the high nibble (formats NNN, XNN, XYN). -/
theorem packNNN_and (hi : BitVec 4) (nnn : Addr12) : packNNN hi nnn &&& 0xF000 = packNNN hi 0 := by
  show (hi ++ nnn) &&& (0xF#4 ++ 0x000#12) = hi ++ 0#12
  rw [BitVec.and_append, show hi &&& 0xF#4 = hi from BitVec.and_allOnes, BitVec.and_zero]

theorem packXNN_and (hi : BitVec 4) (x : RegIdx) (nn : Byte) : packXNN hi x nn &&& 0xF000 = packNNN hi 0 :=
  packNNN_and hi (bitsOfReg x ++ nn)

theorem packXYN_and (hi : BitVec 4) (x y : RegIdx) (n : BitVec 4) : packXYN hi x y n &&& 0xF000 = packNNN hi 0 :=
  packNNN_and hi (bitsOfReg x ++ (bitsOfReg y ++ n))

/-- A mask that leaves out `x` (format X). -/
theorem packXNN_and_nn (hi : BitVec 4) (x : RegIdx) (nn : Byte) : packXNN hi x nn &&& 0xF0FF = packXNN hi (0 : RegIdx) nn := by
  show (hi ++ (bitsOfReg x ++ nn)) &&& (0xF#4 ++ (0x0#4 ++ 0xFF#8)) = hi ++ (bitsOfReg (0 : RegIdx) ++ nn)
  rw [BitVec.and_append, BitVec.and_append]
  congr 1
  · exact BitVec.and_allOnes
  · congr 1
    · simp [bitsOfReg]
    · exact BitVec.and_allOnes

/-- A mask that leaves out `x` and `y` (format XY). -/
theorem packXYN_and_n (hi : BitVec 4) (x y : RegIdx) (n : BitVec 4) : packXYN hi x y n &&& 0xF00F = packXYN hi (0 : RegIdx) (0 : RegIdx) n := by
  show (hi ++ (bitsOfReg x ++ (bitsOfReg y ++ n))) &&& (0xF#4 ++ (0x0#4 ++ (0x0#4 ++ 0xF#4)))
    = hi ++ (bitsOfReg (0 : RegIdx) ++ (bitsOfReg (0 : RegIdx) ++ n))
  rw [BitVec.and_append, BitVec.and_append, BitVec.and_append]
  congr 1
  · exact BitVec.and_allOnes
  · congr 1
    · simp [bitsOfReg]
    · congr 1
      · simp [bitsOfReg]
      · exact BitVec.and_allOnes

/-- A row is selected when masking gives its match. -/
theorem selects_of_and {r : OpcodeRow} {op : Word} (h : op &&& r.mask = r.pattern) : r.selects op = true := by
  simp [OpcodeRow.selects, h]

theorem cls : Statement .cls := by rfl
theorem ret : Statement .ret := by rfl
theorem jp (nnn : Addr12) : Statement (.jp nnn) := selects_of_and (packNNN_and _ nnn)
theorem call (nnn : Addr12) : Statement (.call nnn) := selects_of_and (packNNN_and _ nnn)
theorem seImm (x : RegIdx) (nn : Byte) : Statement (.seImm x nn) := selects_of_and (packXNN_and _ x nn)
theorem sneImm (x : RegIdx) (nn : Byte) : Statement (.sneImm x nn) := selects_of_and (packXNN_and _ x nn)
theorem seReg (x : RegIdx) (y : RegIdx) : Statement (.seReg x y) := selects_of_and (packXYN_and_n _ x y _)
theorem ldImm (x : RegIdx) (nn : Byte) : Statement (.ldImm x nn) := selects_of_and (packXNN_and _ x nn)
theorem addImm (x : RegIdx) (nn : Byte) : Statement (.addImm x nn) := selects_of_and (packXNN_and _ x nn)
theorem ldReg (x : RegIdx) (y : RegIdx) : Statement (.ldReg x y) := selects_of_and (packXYN_and_n _ x y _)
theorem orReg (x : RegIdx) (y : RegIdx) : Statement (.orReg x y) := selects_of_and (packXYN_and_n _ x y _)
theorem andReg (x : RegIdx) (y : RegIdx) : Statement (.andReg x y) := selects_of_and (packXYN_and_n _ x y _)
theorem xorReg (x : RegIdx) (y : RegIdx) : Statement (.xorReg x y) := selects_of_and (packXYN_and_n _ x y _)
theorem addReg (x : RegIdx) (y : RegIdx) : Statement (.addReg x y) := selects_of_and (packXYN_and_n _ x y _)
theorem sub (x : RegIdx) (y : RegIdx) : Statement (.sub x y) := selects_of_and (packXYN_and_n _ x y _)
theorem shr (x : RegIdx) (y : RegIdx) : Statement (.shr x y) := selects_of_and (packXYN_and_n _ x y _)
theorem subn (x : RegIdx) (y : RegIdx) : Statement (.subn x y) := selects_of_and (packXYN_and_n _ x y _)
theorem shl (x : RegIdx) (y : RegIdx) : Statement (.shl x y) := selects_of_and (packXYN_and_n _ x y _)
theorem sneReg (x : RegIdx) (y : RegIdx) : Statement (.sneReg x y) := selects_of_and (packXYN_and_n _ x y _)
theorem ldI (nnn : Addr12) : Statement (.ldI nnn) := selects_of_and (packNNN_and _ nnn)
theorem jpV0 (nnn : Addr12) : Statement (.jpV0 nnn) := selects_of_and (packNNN_and _ nnn)
theorem rnd (x : RegIdx) (nn : Byte) : Statement (.rnd x nn) := selects_of_and (packXNN_and _ x nn)
theorem drw (x : RegIdx) (y : RegIdx) (n : Nat) : Statement (.drw x y n) := selects_of_and (packXYN_and _ x y _)
theorem skp (x : RegIdx) : Statement (.skp x) := selects_of_and (packXNN_and_nn _ x _)
theorem sknp (x : RegIdx) : Statement (.sknp x) := selects_of_and (packXNN_and_nn _ x _)
theorem ldVxDt (x : RegIdx) : Statement (.ldVxDt x) := selects_of_and (packXNN_and_nn _ x _)
theorem ldK (x : RegIdx) : Statement (.ldK x) := selects_of_and (packXNN_and_nn _ x _)
theorem ldDtVx (x : RegIdx) : Statement (.ldDtVx x) := selects_of_and (packXNN_and_nn _ x _)
theorem ldStVx (x : RegIdx) : Statement (.ldStVx x) := selects_of_and (packXNN_and_nn _ x _)
theorem addI (x : RegIdx) : Statement (.addI x) := selects_of_and (packXNN_and_nn _ x _)
theorem ldF (x : RegIdx) : Statement (.ldF x) := selects_of_and (packXNN_and_nn _ x _)
theorem ldB (x : RegIdx) : Statement (.ldB x) := selects_of_and (packXNN_and_nn _ x _)
theorem ldMemRegs (x : RegIdx) : Statement (.ldMemRegs x) := selects_of_and (packXNN_and_nn _ x _)
theorem ldRegsMem (x : RegIdx) : Statement (.ldRegsMem x) := selects_of_and (packXNN_and_nn _ x _)

end Sys2Proof.Laws.EncodesRow
end

