-- ==== Sys2Proof/Tests/Slice0.lean ====
section
/-! SUPPORT. Small tests, each with its expected result from spec/95_test_vectors.md or from the worked example of the rule
named; the smoke test of well-formedness; a word of every constructor written out from spec/30_encoding.md R104; and for every
statement with hypotheses a concrete state that meets them. -/

namespace Sys2Proof.Tests

open Sys2Proof.Machine

/-! ## Helpers -/

/-- The reset state with some registers set. -/
def regs (l : List (RegIdx × Byte)) : State := l.foldl (fun s p => s.setV p.1 p.2) State.reset

/-- The reset state with bytes stored from an address on. -/
def bytesAt (a : Nat) (bs : List Byte) (s : State) : State := { s with mem := s.mem.writeAll s.params a bs }

/-- What a reader sees of a next state; `none` for a stop. -/
def see {α : Type} (f : State → α) : Result → Option α
  | .next t => some (f t)
  | .fault _ => none
  | .refused _ => none

/-! ## Well-formedness and decoding -/

/-- The one check of `Instr.wellFormed`: a height of 16 does not fit a nibble (R101), 15 does. -/
theorem test_wellFormed_refuses_height_16 :
    (Instr.drw 1 2 16).wellFormed = false ∧ (Instr.drw 1 2 15).wellFormed = true := by decide

/-- Words bit by bit from R104, control transfer. -/
theorem test_decode_control :
    decode 0b0000000011101110#16 = .ok .ret ∧ decode 0b0001101010111100#16 = .ok (.jp 0xABC) ∧
    decode 0b0010010000000000#16 = .ok (.call 0x400) ∧ decode 0b0011101001000010#16 = .ok (.seImm 0xA 0x42) ∧
    decode 0b0100101001000010#16 = .ok (.sneImm 0xA 0x42) ∧ decode 0b0101000100100000#16 = .ok (.seReg 1 2) ∧
    decode 0b1001000100100000#16 = .ok (.sneReg 1 2) ∧ decode 0b1011001100000000#16 = .ok (.jpV0 0x300) := by decide

/-- Words bit by bit from R104, register arithmetic. -/
theorem test_decode_alu :
    decode 0b0110101001000010#16 = .ok (.ldImm 0xA 0x42) ∧ decode 0b0111000100000010#16 = .ok (.addImm 1 2) ∧
    decode 0b1000000100100000#16 = .ok (.ldReg 1 2) ∧ decode 0b1000000100100001#16 = .ok (.orReg 1 2) ∧
    decode 0b1000000100100010#16 = .ok (.andReg 1 2) ∧ decode 0b1000000100100011#16 = .ok (.xorReg 1 2) ∧
    decode 0b1000000100100100#16 = .ok (.addReg 1 2) ∧ decode 0b1000000100100101#16 = .ok (.sub 1 2) ∧
    decode 0b1000101010110110#16 = .ok (.shr 0xA 0xB) ∧ decode 0b1000000100100111#16 = .ok (.subn 1 2) ∧
    decode 0b1000101010111110#16 = .ok (.shl 0xA 0xB) ∧ decode 0b1100001100001111#16 = .ok (.rnd 3 0x0F) := by decide

/-- Words bit by bit from R104, index register and memory. -/
theorem test_decode_index :
    decode 0b1010000100100011#16 = .ok (.ldI 0x123) ∧ decode 0b1111001000011110#16 = .ok (.addI 2) ∧
    decode 0b1111001100101001#16 = .ok (.ldF 3) ∧ decode 0b1111000000110011#16 = .ok (.ldB 0) ∧
    decode 0b1111000101010101#16 = .ok (.ldMemRegs 1) ∧ decode 0b1111111101100101#16 = .ok (.ldRegsMem 0xF) := by decide

/-- Words bit by bit from R104, display, keyboard and timer. -/
theorem test_decode_devices :
    decode 0b0000000011100000#16 = .ok .cls ∧ decode 0b1101000100101111#16 = .ok (.drw 1 2 15) ∧
    decode 0b1110000010011110#16 = .ok (.skp 0) ∧ decode 0b1110000110100001#16 = .ok (.sknp 1) ∧
    decode 0b1111010000000111#16 = .ok (.ldVxDt 4) ∧ decode 0b1111000000001010#16 = .ok (.ldK 0) ∧
    decode 0b1111000100010101#16 = .ok (.ldDtVx 1) ∧ decode 0b1111000000011000#16 = .ok (.ldStVx 0) := by decide

/-- Illegal opcodes of spec/95 2.1. -/
theorem test_decode_illegal :
    decode 0x0000 = .error .illegalGroup0 ∧ decode 0x00E1 = .error .illegalGroup0 ∧ decode 0x5121 = .error .illegalGroup5 ∧
    decode 0x800F = .error .illegalGroup8 ∧ decode 0x9001 = .error .illegalGroup9 ∧ decode 0xE09F = .error .illegalGroupE ∧
    decode 0xF0FF = .error .illegalGroupF := by decide

/-- Bytes in memory order, big-endian (R77): 60 2A is 602A; one byte is too short (R100). -/
theorem test_decodeBytes :
    decodeBytes [0x60, 0x2A, 0x99] = .ok (.ldImm 0 0x2A, [0x99]) ∧ decodeBytes [0x60] = .error .tooShort ∧
    decodeTableWord 16 0x602A = some (.ldImm 0 0x2A) ∧ decodeTableWord 16 0x5121 = none := by decide

/-- Opcodes of the spec's examples, encoded. -/
theorem test_encode :
    encode (.drw 1 2 15) = 0xD12F ∧ encode (.shr 0xA 0xB) = 0x8AB6 ∧ encode (.ldMemRegs 0xF) = 0xFF55 ∧
    encode (.jpV0 0x300) = 0xB300 := by decide

/-! ## The step (spec/95 2.2) -/

/-- pc = 0200, 60 2A: V0 = 2A, pc' = 0202. -/
theorem test_step_ldImm :
    see (fun t => (t.getV 0, t.pc, t.status)) (step (State.reset.withFetchWord 16 0x602A))
      = some (0x2A, 0x202, .running) := by decide

/-- pc = 0201 (odd), 12 00: pc' = 0200. -/
theorem test_step_odd_pc :
    see (fun t => t.pc) (step (State.withFetchWord { State.reset with pc := 0x201 } 16 0x1200)) = some 0x200 := by decide

/-- pc = 0FFE, 00 E0: pc' = 1000. -/
theorem test_step_last_address :
    see (fun t => (t.pc, t.status)) (step (State.withFetchWord { State.reset with pc := 0xFFE } 16 0x00E0))
      = some (0x1000, .running) := by decide

/-- pc = 0FFF: OutOfBounds, record {3, pc 0FFF, op none, addr 1000}. -/
theorem test_step_fetch_fault :
    see (fun t => t.status) (step { State.reset with pc := 0xFFF })
      = some (.faulted ⟨.outOfBounds, 0xFFF, none, some 0x1000⟩) ∧ FaultCode.outOfBounds.number = 3 := by decide

/-- An empty ROM: DecodeError(0x200, 0x0000) (R353). -/
theorem test_step_empty_rom :
    see (fun t => (t.status, t.pc)) (step State.reset) = some (.faulted ⟨.decodeError, 0x200, some 0, none⟩, 0x200) := by
  decide

/-- A listed host input: key 7 set 20 ms on with random byte A7 (program P5 step 3; vector C30F). -/
theorem test_step_host_input :
    see (fun t => (t.key, t.now, t.getV 3, t.host, t.draws))
      (step (State.withFetchWord { State.reset with host := [⟨some (some 7), 20, 0xA7⟩] } 16 0xC30F))
      = some (some 7, 20, 0x07, [], 1) := by decide

/-! ## Control transfer (spec/95 2.3) -/

theorem test_ret : see (fun t => (t.pc, t.stack)) (exec .ret { State.reset with stack := [0x300, 0x202] })
    = some (0x202, [0x300]) := by decide
theorem test_ret_underflow : see (fun t => (t.pc, t.status)) (exec .ret { State.reset with pc := 0x250 })
    = some (0x250, .faulted ⟨.stackUnderflow, 0x250, some 0x00EE, none⟩) := by decide
/-- A finite capacity of two: the third call raises StackOverflow, code 4 (R144, R300). -/
theorem test_call_overflow : see (fun t => (t.pc, t.stack, t.status))
      (exec (.call 0x400) { State.resetWith { Params.hardware with stackCapacity := some 2 } with stack := [0x300, 0x310] })
    = some (0x200, [0x300, 0x310], .faulted ⟨.stackOverflow, 0x200, some 0x2400, none⟩) ∧
      FaultCode.stackOverflow.number = 4 := by decide
theorem test_jp : see (fun t => t.pc) (exec (.jp 0xABC) State.reset) = some 0xABC := by decide
theorem test_call : see (fun t => (t.pc, t.stack)) (exec (.call 0x400) { State.reset with stack := [0x300, 0x310] })
    = some (0x400, [0x300, 0x310, 0x202]) := by decide
theorem test_seImm : see (fun t => t.pc) (exec (.seImm 0xA 0x42) (regs [(0xA, 0x42)])) = some 0x204 := by decide
theorem test_seImm_no : see (fun t => t.pc) (exec (.seImm 0xA 0x42) (regs [(0xA, 0x43)])) = some 0x202 := by decide
theorem test_sneImm : see (fun t => t.pc) (exec (.sneImm 0xA 0) (regs [(0xA, 0x42)])) = some 0x204 := by decide
theorem test_seReg : see (fun t => t.pc) (exec (.seReg 1 2) (regs [(1, 7), (2, 7)])) = some 0x204 := by decide
theorem test_sneReg : see (fun t => t.pc) (exec (.sneReg 1 2) (regs [(1, 7), (2, 8)])) = some 0x204 := by decide
theorem test_sneReg_no : see (fun t => t.pc) (exec (.sneReg 3 3) (regs [(3, 9)])) = some 0x202 := by decide
theorem test_jpV0 : see (fun t => t.pc) (exec (.jpV0 0x300) (regs [(0, 4)])) = some 0x304 := by decide
theorem test_jpV0_largest : see (fun t => t.pc) (exec (.jpV0 0xFFF) (regs [(0, 0xFF)])) = some 0x10FE := by decide

/-! ## Register arithmetic (spec/95 2.4) -/

theorem test_ldImm_vF : see (fun t => t.getV 15) (exec (.ldImm 15 0xFF) State.reset) = some 0xFF := by decide
theorem test_addImm : see (fun t => (t.getV 1, t.getV 15)) (exec (.addImm 1 2) (regs [(1, 0xFF), (15, 0x55)]))
    = some (0x01, 0x55) := by decide
theorem test_ldReg : see (fun t => t.getV 1) (exec (.ldReg 1 2) (regs [(2, 0x99)])) = some 0x99 := by decide
theorem test_orReg : see (fun t => (t.getV 1, t.getV 15)) (exec (.orReg 1 2) (regs [(1, 0xF0), (2, 0x0F), (15, 0x77)]))
    = some (0xFF, 0x77) := by decide
theorem test_andReg : see (fun t => t.getV 1) (exec (.andReg 1 2) (regs [(1, 0xF3), (2, 0x3F)])) = some 0x33 := by decide
theorem test_xorReg : see (fun t => t.getV 1) (exec (.xorReg 1 2) (regs [(1, 0xFF), (2, 0x0F)])) = some 0xF0 := by decide
theorem test_addReg_boundary : see (fun t => (t.getV 1, t.getV 15)) (exec (.addReg 1 2) (regs [(1, 0x7F), (2, 0x80)]))
    = some (0xFF, 0) := by decide
theorem test_addReg_vF : see (fun t => t.getV 15) (exec (.addReg 15 1) (regs [(15, 0x10), (1, 0xF5)])) = some 1 := by decide
theorem test_sub_borrow : see (fun t => (t.getV 1, t.getV 15)) (exec (.sub 1 2) (regs [(1, 0x01), (2, 0xFF)]))
    = some (0x02, 0) := by decide
theorem test_sub_equal : see (fun t => (t.getV 1, t.getV 15)) (exec (.sub 1 2) (regs [(1, 5), (2, 5)])) = some (0, 1) := by
  decide
theorem test_shr : see (fun t => (t.getV 1, t.getV 15, t.getV 10)) (exec (.shr 1 10) (regs [(1, 5), (10, 0x77)]))
    = some (2, 1, 0x77) := by decide
theorem test_shr_vF : see (fun t => t.getV 15) (exec (.shr 15 0) (regs [(15, 3)])) = some 0 := by decide
theorem test_subn : see (fun t => (t.getV 1, t.getV 15)) (exec (.subn 1 2) (regs [(1, 2), (2, 1)])) = some (0xFF, 0) := by
  decide
theorem test_subn_vF : see (fun t => t.getV 15) (exec (.subn 15 1) (regs [(15, 1), (1, 3)])) = some 1 := by decide
theorem test_shl : see (fun t => (t.getV 1, t.getV 15)) (exec (.shl 1 0) (regs [(1, 0x81)])) = some (2, 1) := by decide
theorem test_shl_vF : see (fun t => t.getV 15) (exec (.shl 15 0) (regs [(15, 0x80)])) = some 2 := by decide
theorem test_rnd : see (fun t => t.getV 3) (exec (.rnd 3 0x0F) { State.reset with rand := 0xA7 }) = some 0x07 := by decide

/-! ## Index register and memory (spec/95 2.5) -/

theorem test_ldI : see (fun t => t.i) (exec (.ldI 0x123) State.reset) = some 0x123 := by decide
theorem test_addI_wraps : see (fun t => (t.i, t.getV 15)) (exec (.addI 0) { regs [(0, 1)] with i := 0xFFFF })
    = some (0, 0) := by decide
theorem test_addI : see (fun t => (t.i, t.getV 15)) (exec (.addI 2) { regs [(2, 3)] with i := 0xFFE })
    = some (0x1001, 0) := by decide
theorem test_ldF : see (fun t => t.i) (exec (.ldF 0) (regs [(0, 0x0A)])) = some 0x32 := by decide
theorem test_ldF_whole_byte : see (fun t => t.i) (exec (.ldF 0) (regs [(0, 0xFF)])) = some 0x4FB := by decide
theorem test_ldB : see (fun t => (t.mem, t.i)) (exec (.ldB 0) { regs [(0, 157)] with i := 0x300 })
    = some ([(0x300, 1), (0x301, 5), (0x302, 7)], 0x300) := by decide
theorem test_ldB_fault : see (fun t => (t.mem, t.status)) (exec (.ldB 0) { State.reset with i := 0xFFE })
    = some ([], .faulted ⟨.outOfBounds, 0x200, some 0xF033, some 0x1000⟩) := by decide
theorem test_ldMemRegs : see (fun t => (t.mem, t.i)) (exec (.ldMemRegs 1) { regs [(0, 0x11), (1, 0x22)] with i := 0x300 })
    = some ([(0x300, 0x11), (0x301, 0x22)], 0x302) := by decide
theorem test_ldMemRegs_fault : see (fun t => (t.mem, t.i, t.status)) (exec (.ldMemRegs 15) { regs [(0, 1)] with i := 0xFF8 })
    = some ([], 0xFF8, .faulted ⟨.outOfBounds, 0x200, some 0xFF55, some 0x1000⟩) := by decide
theorem test_ldRegsMem : see (fun t => (t.getV 0, t.getV 1, t.getV 2, t.i))
      (exec (.ldRegsMem 1) (bytesAt 0x300 [0x11, 0x22, 0x33] { State.reset with i := 0x300 }))
    = some (0x11, 0x22, 0, 0x302) := by decide
theorem test_ldRegsMem_last_byte : see (fun t => (t.getV 0, t.i, t.status))
      (exec (.ldRegsMem 0) (bytesAt 0xFFF [0x5E] { State.reset with i := 0xFFF }))
    = some (0x5E, 0x1000, .running) := by decide

/-- Writing the reset content takes the entry out; a byte of the font reads back (R74, R75). -/
theorem test_memory_canonical :
    Memory.write [(0x300, 1)] .hardware 0x300 0 = [] ∧ Memory.write [] .hardware 0x000 0xF0 = [] ∧
    Memory.read [] .hardware 0x37 = 0xE0 ∧
    Memory.write [(0x300, 1)] .hardware 0x2FF 7 = [(0x2FF, 7), (0x300, 1)] := by decide

/-! ## Display (spec/95 2.6) -/

theorem test_cls : see (fun t => (t.pixel 5 6, t.getV 15))
      (exec .cls { regs [(15, 9)] with disp := State.reset.disp.setPixel .hardware 5 6 true }) = some (false, 9) := by decide +kernel
/-- S5: at column 63 the row wraps to columns 0 to 6. -/
theorem test_drw_wraps : see (fun t => (t.pixel 63 0, t.pixel 0 0, t.pixel 6 0, t.pixel 7 0, t.getV 15))
      (exec (.drw 1 2 1) (bytesAt 0x300 [0xFF] { regs [(1, 63)] with i := 0x300 }))
    = some (true, true, true, false, 0) := by decide +kernel
/-- A 1 bit on a set pixel clears it and collides; the column is the old VF (DF01). -/
theorem test_drw_collides : see (fun t => (t.pixel 16 0, t.getV 15))
      (exec (.drw 15 0 1) (bytesAt 0x300 [0x80]
        { regs [(15, 0x10)] with i := 0x300, disp := State.reset.disp.setPixel .hardware 16 0 true }))
    = some (false, 1) := by decide +kernel

/-! ## Keyboard and timer (spec/95 2.7) -/

theorem test_skp : see (fun t => t.pc) (exec (.skp 2) { regs [(2, 5)] with key := some 5 }) = some 0x204 := by decide
theorem test_skp_whole_byte : see (fun t => t.pc) (exec (.skp 2) { regs [(2, 0x15)] with key := some 5 }) = some 0x202 := by
  decide
theorem test_sknp : see (fun t => t.pc) (exec (.sknp 2) { regs [(2, 5)] with key := some 5 }) = some 0x202 := by decide
theorem test_sknp_16 : see (fun t => t.pc) (exec (.sknp 2) { regs [(2, 0x10)] with key := some 0 }) = some 0x204 := by decide
theorem test_ldK_waits : see (fun t => (t.pc, t.waitX, t.hostStatus)) (exec (.ldK 3) State.reset)
    = some (0x200, some 3, .waitingForKey) := by decide
theorem test_ldK_key_0 : see (fun t => (t.pc, t.waitX, t.getV 3)) (exec (.ldK 3) { regs [(3, 9)] with key := some 0 })
    = some (0x202, none, 0) := by decide
theorem test_poll : see (fun t => (t.getV 3, t.pc, t.waitX)) (runStep { State.reset with waitX := some 3, key := some 0xC })
    = some (0x0C, 0x202, none) := by decide
theorem test_ldDtVx : see (fun t => (t.timerValue, t.timerInstant)) (exec (.ldDtVx 1) { regs [(1, 0x0A)] with now := 1000 })
    = some (0x0A, 1000) := by decide
theorem test_ldVxDt : see (fun t => t.getV 4)
      (exec (.ldVxDt 4) { State.reset with timerValue := 0x0A, timerInstant := 1000, now := 1050 }) = some 8 := by decide
theorem test_ldVxDt_clock_behind : see (fun t => t.getV 4)
      (exec (.ldVxDt 4) { State.reset with timerValue := 0x0A, timerInstant := 1000, now := 990 }) = some 0x0A := by decide
theorem test_ldStVx : see (fun t => (t.pc, t.timerValue)) (exec (.ldStVx 5) { regs [(5, 9)] with timerValue := 7 })
    = some (0x202, 7) := by decide

/-! ## Reset with a ROM -/

/-- Program P1's first two bytes at 0x200 (R352); the glyphs stay. -/
theorem test_boot : (State.boot .hardware [0x60, 0x00, 0x61] 500).map (fun s => (s.byteAt 0x200, s.byteAt 0x202, s.byteAt 0, s.now))
    = some (0x60, 0x61, 0xF0, 500) := by decide

/-! ## Other parameters (R7, R33; expected values by hand from the rules) -/

/-- A machine of 20 registers of 12 bits, `pc` and I of 24 bits and 18 keys. -/
abbrev wide : State 20 12 24 24 18 := State.resetWith .hardware 20 12 24 24 18

/-- 8xy4 at 12 bits: FFF + 001 wraps to 000 with carry 1; at 8 bits FF + 01 would carry. -/
theorem test_wide_addReg : ∃ t, execAt (by decide) (.addReg 1 2) ((wide.setV 1 0xFFF).setV 2 1) = .next t ∧
    t.getV 1 = 0 ∧ t.getV 15 = 1 ∧ t.pc = 0x202 := ⟨_, rfl, by decide⟩
/-- 8xyE at 12 bits: the bit shifted out is bit 11. -/
theorem test_wide_shl : ∃ t, execAt (by decide) (.shl 1 0) (wide.setV 1 0x801) = .next t ∧
    t.getV 1 = 2 ∧ t.getV 15 = 1 := ⟨_, rfl, by decide⟩
/-- Fx1E at 24 bits: FFFF + 1 does not wrap. -/
theorem test_wide_addI : ∃ t, execAt (by decide) (.addI 2) ((wide.setI 0xFFFF).setV 2 1) = .next t ∧
    t.i = 0x10000 := ⟨_, rfl, by decide⟩
/-- A step with R7's sizes is the hardware's: 60 2A at 0200. -/
theorem test_stepAt_hardware : see (fun t => (t.getV 0, t.pc)) (stepAt (Nat.le_refl 16) (State.reset.withFetchWord 16 0x602A))
    = some (0x2A, 0x202) := by decide

/-! ## Witnesses: states that meet the hypotheses of the statements -/

/-- A running state whose `pc` points at LD V0, 2A. -/
abbrev running : State := State.reset.withFetchWord 16 0x602A

/-- A state in the middle of a key wait: Fx0A at `pc`, register 3 pending. -/
abbrev waiting : State := { State.reset.withFetchWord 16 0xF30A with waitX := some 3 }

/-- A faulted state. -/
abbrev fallen : State := State.reset.enterFault .stackUnderflow (some 0x00EE) none

/-- DecodeOfEncode at the largest height. -/
theorem witness_DecodeOfEncode : (Instr.drw 0xF 0xF 15).wellFormed = true := by decide
/-- EncodeOfDecode and DecodedOpcodeSelectsOneRow, at a word with an ignored field. -/
theorem witness_decodes : decode 0x8AB6 = .ok (.shr 0xA 0xB) := by decide
/-- StepRunsDecodedInstruction. -/
theorem witness_StepRunsDecodedInstruction :
    running.status = .running ∧ running.waitX = none ∧ running.fetch = .ok 0x602A ∧ decode 0x602A = .ok (.ldImm 0 0x2A) := by
  decide
/-- HostInputIsListedOrFree, each clause. -/
theorem witness_HostInputIsListedOrFree :
    ({ State.reset with host := [⟨none, 0, 0⟩] } : State).host = ⟨none, 0, 0⟩ :: [] ∧ State.reset.host = [] := by decide
/-- FetchIsBigEndianOrFaults, each clause at the boundary. -/
theorem witness_FetchIsBigEndianOrFaults :
    (0xFFE : Word).toNat + 1 < Params.hardware.memSize ∧ State.reset.status = .running ∧ State.reset.waitX = none ∧
    Params.hardware.memSize ≤ (0xFFF : Word).toNat + 1 := by decide
/-- IllegalOpcodeRaisesDecodeError at 0123. -/
theorem witness_IllegalOpcodeRaisesDecodeError :
    (State.reset.withFetchWord 16 0x0123).status = .running ∧ (State.reset.withFetchWord 16 0x0123).waitX = none ∧
    (State.reset.withFetchWord 16 0x0123).fetch = .ok 0x0123 ∧ ∀ r ∈ opcodeTable, r.selects 0x0123 = false := by decide
/-- FaultedMachineStaysAsItIs. -/
theorem witness_FaultedMachineStaysAsItIs : fallen.status = .faulted ⟨.stackUnderflow, 0x200, some 0x00EE, none⟩ := by decide
/-- KeyWaitPolls, each clause. -/
theorem witness_KeyWaitPolls :
    waiting.status = .running ∧ waiting.waitX = some 3 ∧ waiting.key = none ∧
    ({ waiting with key := some 0xF } : State).key = some 0xF := by decide
/-- KeyWaitEqualsRefetch and StepKeepsInvariant: a waiting state has the invariant. -/
theorem witness_invariant : MachineInv waiting ∧ waiting.status = .running ∧ waiting.waitX = some 3 := by
  refine ⟨⟨by decide, by decide, Display.wf_clear, by decide, by decide, (fun a h => by cases h), (fun c h => by cases h), ?_, ?_⟩,
    by decide, by decide⟩
  · intro x h
    cases h
    decide
  · intro r h
    cases h
/-- StepKeepsInvariant: that state steps. -/
theorem witness_StepKeepsInvariant : ∃ t, MachineInv waiting ∧ step waiting = .next t := ⟨_, witness_invariant.1, rfl⟩
/-- SelfJumpChangesNothing: 1200 at 0200. -/
theorem witness_SelfJumpChangesNothing :
    (State.reset.withFetchWord 16 0x1200).status = .running ∧ (State.reset.withFetchWord 16 0x1200).waitX = none ∧
    (State.reset.withFetchWord 16 0x1200).instrAtPc = some (.jp 0x200) ∧
    (0x200 : Addr12).setWidth 16 = (State.reset.withFetchWord 16 0x1200).pc := by decide
/-- ReturnPopsOrUnderflows, each clause. -/
theorem witness_ReturnPopsOrUnderflows :
    ({ State.reset with stack := [0x206] } : State).stack = [] ++ [0x206] ∧ State.reset.stack = [] := by decide
/-- ShiftsByOne, AddRegistersWithCarry, SubtractionsWithNotBorrow, AddImmediateWrapsWithoutFlag: registers other than VF. -/
theorem witness_not_vF : (14 : RegIdx) ≠ 15 ∧ (13 : RegIdx) ≠ 14 ∧ (13 : RegIdx) ≠ 15 := by decide
/-- IndexLoads: this hardware's glyphs have five bytes, and another machine's have not. -/
theorem witness_IndexLoads :
    State.reset.params.glyphBytes = 5 ∧ (State.resetWith { Params.hardware with glyphBytes := 300 }).params.glyphBytes ≠ 5 := by
  decide
/-- DecimalDigitsStored, each clause at the boundary. -/
theorem witness_DecimalDigitsStored :
    (0xFFD : Word).toNat + 2 < Params.hardware.memSize ∧ Params.hardware.memSize ≤ (0xFFE : Word).toNat + 2 := by decide
/-- RegistersStored, RegistersLoaded and StoreThenLoadReproduces, each clause at the boundary. -/
theorem witness_blocks :
    (0xFF0 : Word).toNat + (15 : RegIdx).val < Params.hardware.memSize ∧ Params.hardware.memSize ≤ (0xFF1 : Word).toNat + (15 : RegIdx).val := by
  decide
/-- FetchSeesStoredBytes: two bytes stored at 300, fetched there. -/
theorem witness_FetchSeesStoredBytes :
    ∃ t, exec (.ldMemRegs 1) { State.reset with i := 0x300 } = .next t ∧ (0x300 : Word).toNat + (1 : RegIdx).val < Params.hardware.memSize ∧
      (0 : RegIdx) < 1 ∧ (0x300 : Word).toNat = (0x300 : Word).toNat + (0 : RegIdx).val := ⟨_, rfl, by decide⟩
/-- CanonicalMemoriesAreEqual: a canonical memory, read alike by itself, and the last legal address. -/
theorem witness_CanonicalMemoriesAreEqual : Memory.wf [(0x300, 1), (0xFFF, 2)] .hardware ∧ 0xFFF < Params.hardware.memSize := by decide
/-- CallPushesAndJumps, CallThenReturn, OnlyFiveInstructionsFault: this hardware's stack is never full, a finite one can be. -/
theorem witness_CallPushesAndJumps :
    State.reset.params.stackCapacity ≠ some State.reset.stack.length ∧
    (State.resetWith { Params.hardware with stackCapacity := some 0 }).params.stackCapacity
      = some (State.resetWith { Params.hardware with stackCapacity := some 0 }).stack.length := by decide
/-- DrawInvertsSpritePixels, each clause at the boundary: a full sprite up to the last byte, no rows anywhere, one row beyond. -/
theorem witness_DrawInvertsSpritePixels :
    (Instr.drw 1 2 15).wellFormed = true ∧ (0xFF1 : Word).toNat + 15 ≤ Params.hardware.memSize ∧
    (Instr.drw 1 2 0).wellFormed = true ∧ (1 : Nat) ≠ 0 ∧ Params.hardware.memSize < (0x1000 : Word).toNat + 1 := by decide
/-- DrawInvertsSpritePixels, DrawTwiceRestoresDisplay, BufferIsRowMajor: the display of this hardware, clear. -/
theorem witness_DrawTwiceRestoresDisplay :
    (Instr.drw 1 2 15).wellFormed = true ∧ (1 : RegIdx) ≠ 15 ∧ (2 : RegIdx) ≠ 15 ∧ State.reset.params.legal ∧
    8 ≤ State.reset.params.displayW ∧ 15 ≤ State.reset.params.displayH ∧
    State.reset.i.toNat + 15 ≤ State.reset.params.memSize ∧
    State.reset.disp.wf State.reset.params ∧ State.reset.disp = Display.clear State.reset.params :=
  ⟨by decide, by decide, by decide, by decide, by decide, by decide, by decide, Display.wf_clear, rfl⟩
/-- SkipsOnKey, each clause at the boundary. -/
theorem witness_SkipsOnKey :
    ({ regs [(2, 15)] with key := some 15 } : State).key = some 15 ∧ (15 : Key).val = ((regs [(2, 15)]).getV 2).toNat ∧
    State.reset.key = none ∧ 16 ≤ ((regs [(2, 16)]).getV 2).toNat := by decide
/-- KeyLoadOrWait, each clause. -/
theorem witness_KeyLoadOrWait : ({ State.reset with key := some 0 } : State).key = some 0 ∧ State.reset.key = none := by decide
/-- TimerReadIsSetValueLessTicks, each clause; they exclude each other. -/
theorem witness_TimerReadIsSetValueLessTicks :
    State.reset.timerInstant ≤ State.reset.now ∧
    ({ State.reset with timerInstant := 1 } : State).now < ({ State.reset with timerInstant := 1 } : State).timerInstant := by
  decide
/-- TimerDecaysToZero, the last clause too. -/
theorem witness_TimerDecaysToZero :
    0 < State.reset.params.tickMs ∧ State.reset.now ≤ 170 ∧ 170 ≤ 171 ∧
    State.reset.now + State.reset.params.tickMs * ((regs [(1, 10)]).getV 1).toNat ≤ 170 := by decide
/-- The whole-machine statements about an instruction that goes on: NextPcByClass, OnlyNamedRegistersWritten,
IndexWrittenByFive, EachUnitHasItsWriters, InstructionsKeepInputsAndStatus. -/
theorem witness_exec_goes_on :
    ∃ t, exec (.addImm 1 2) State.reset = .next t ∧ State.reset.status = .running ∧ t.status = .running ∧
      (Instr.addImm 1 2).writesReg 2 = false ∧ (Instr.addImm 1 2).writesI = false ∧ (Instr.addImm 1 2).pcClass = .advance :=
  ⟨_, rfl, by decide⟩
/-- NextPcByClass, one instruction of each other class. -/
theorem witness_pcClasses :
    (Instr.seImm 1 2).pcClass = .skip ∧ (Instr.jp 0).pcClass = .set ∧ (Instr.ldK 1).pcClass = .hold := by decide
/-- InputsReadOnlyWhereNamed: an instruction outside every named set. -/
theorem witness_InputsReadOnlyWhereNamed :
    (∀ x nn, Instr.cls ≠ .rnd x nn) ∧ (∀ x, Instr.cls ≠ .ldVxDt x) ∧ (∀ x, Instr.cls ≠ .ldDtVx x) ∧
    (∀ x, Instr.cls ≠ .skp x) ∧ (∀ x, Instr.cls ≠ .sknp x) ∧ (∀ x, Instr.cls ≠ .ldK x) := by simp
/-- FaultsArePrecise: the reset state runs and faults. -/
theorem witness_FaultsArePrecise :
    ∃ t r, State.reset.status = .running ∧ runStep State.reset = .next t ∧ t.status = .faulted r :=
  ⟨_, ⟨.decodeError, 0x200, some 0, none⟩, rfl, rfl, rfl⟩
/-- OnlyFiveInstructionsFault: a return on an empty stack. -/
theorem witness_OnlyFiveInstructionsFault :
    ∃ t r, State.reset.status = .running ∧ exec .ret State.reset = .next t ∧ t.status = .faulted r :=
  ⟨_, ⟨.stackUnderflow, 0x200, some 0x00EE, none⟩, rfl, rfl, rfl⟩
/-- ResetLoadsRom, each clause at the boundary: 3584 bytes fit, 3585 do not. -/
theorem witness_ResetLoadsRom :
    0x200 + (List.replicate 3584 (0 : Byte)).length ≤ Params.hardware.memSize ∧
    Params.hardware.memSize < 0x200 + (List.replicate 3585 (0 : Byte)).length := by
  rw [List.length_replicate, List.length_replicate]
  decide
/-- EmptyRomFaultsAtOnce and InvariantAtReset: an empty ROM is launched with legal parameters. -/
theorem witness_boot : ∃ s, State.boot .hardware [] 7 = some s ∧ Params.hardware.legal := ⟨_, rfl, by decide⟩
/-- ParametersAreArguments, each clause: a load address within 16 bits, the least number of registers and more, a ROM launched
and a step at other sizes, and two different registers. -/
theorem witness_ParametersAreArguments :
    Params.hardware.loadAddr < 2 ^ 16 ∧ (∃ t, stepAt (Nat.le_refl 16) State.reset = .next t) ∧
    (∃ t, stepAt (by decide : 16 ≤ 20) wide = .next t) ∧ (∃ s, State.boot .hardware [1] 7 20 12 24 24 18 = some s) ∧
    Fin.castLE (by decide : 16 ≤ 20) 15 ≠ (16 : Fin 20) :=
  ⟨by decide, ⟨_, rfl⟩, ⟨_, rfl⟩, ⟨_, rfl⟩, by decide⟩
/-- StatusAnswers, each clause. -/
theorem witness_StatusAnswers :
    fallen.status ≠ .running ∧ waiting.status = .running ∧ waiting.waitX ≠ none ∧ running.status = .running ∧
    running.waitX = none := by decide

end Sys2Proof.Tests
end

/-! Proofs, scope (spec/00_scope.md): what the step's frame and its parameters need, and the two statements of the family. -/

namespace Sys2Proof.Machine

section
variable {nr rw pw iw nk : Nat}

/-! ### Where a step's input comes from -/

theorem State.nextHostInput_of_cons {s : State nr rw pw iw nk} {h : HostInput nk} {hs : List (HostInput nk)}
    (hh : s.host = h :: hs) : s.nextHostInput = h := by
  simp [State.nextHostInput, hh]

theorem State.nextHostInput_of_nil {s : State nr rw pw iw nk} (hh : s.host = []) :
    s.nextHostInput = freeHostInput nk s.draws := by
  simp [State.nextHostInput, hh]

/-! ### All a cycle can do -/

/-- Every outcome of a cycle, with what led to it: nothing once faulted (R303), a poll while waiting (R272), a fault of the fetch
(R141) or of the decoder (R105), or an instruction executed (R140). -/
theorem cycle_cases (execute : Instr → State nr rw pw iw nk → Result nr rw pw iw nk) (s : State nr rw pw iw nk) :
    (∃ r, s.status = .faulted r ∧ cycle execute s = .next s) ∨
    (∃ x, s.status = .running ∧ s.waitX = some x ∧ cycle execute s = .next (s.keyWaitPoll x)) ∨
    (∃ a, s.status = .running ∧ s.waitX = none ∧ s.fetch = .error a ∧
      cycle execute s = .next (s.enterFault .outOfBounds none (some a))) ∨
    (∃ op e, s.status = .running ∧ s.waitX = none ∧ s.fetch = .ok op ∧ decode op = .error e ∧
      cycle execute s = .next (s.enterFault .decodeError (some op) none)) ∨
    (∃ op i, s.status = .running ∧ s.waitX = none ∧ s.fetch = .ok op ∧ decode op = .ok i ∧
      cycle execute s = execute i s) := by
  unfold cycle
  cases hs : s.status with
  | faulted r => simp
  | running =>
    cases hw : s.waitX with
    | some x => simp
    | none =>
      cases hf : s.fetch with
      | error a => simp
      | ok op => cases hd : decode op <;> simp [hd]

/-! ### The meanings that use the call stack -/

/-- 00EE on an empty stack (R146). -/
theorem execRet_of_nil {s : State nr rw pw iw nk} (h : s.stack = []) :
    execRet s = .next (s.enterFault .stackUnderflow (some 0x00EE) none) := by
  simp [execRet, State.pop_nil h]

/-- 00EE with a return address on top (R146). -/
theorem execRet_of_concat {s : State nr rw pw iw nk} {st : List (BitVec pw)} {a : BitVec pw} (h : s.stack = st ++ [a]) :
    execRet s = .next (State.setPc { s with stack := st } a) := by
  simp [execRet, State.pop_concat h]

/-- All 2nnn can do (R148, R144). -/
theorem execCall_eq (nnn : Addr12) (s : State nr rw pw iw nk) :
    execCall nnn s =
      if s.params.stackCapacity = some s.stack.length then
        .next (s.enterFault .stackOverflow (some (packNNN 0x2 nnn)) none)
      else .next (State.setPc { s with stack := s.stack ++ [s.pc + 2] } (addrWord nnn)) := by
  by_cases hfull : s.params.stackCapacity = some s.stack.length <;> simp [execCall, State.push_eq, hfull]

/-! ### Every instruction answers a next state with the same parameters -/

@[simp] theorem State.keyWaitPoll_params (s : State nr rw pw iw nk) (x : Fin nr) : (s.keyWaitPoll x).params = s.params := by
  cases hk : s.key with
  | none => rw [State.keyWaitPoll_none x hk]
  | some k => rw [State.keyWaitPoll_some x hk, State.takeKey_params]

theorem execRet_params (s : State nr rw pw iw nk) : ∃ t, execRet s = .next t ∧ t.params = s.params := by
  rcases s.stack.eq_nil_or_concat' with hnil | ⟨st, a, hconcat⟩
  · exact ⟨_, execRet_of_nil hnil, rfl⟩
  · exact ⟨_, execRet_of_concat hconcat, rfl⟩

theorem execCall_params (nnn : Addr12) (s : State nr rw pw iw nk) :
    ∃ t, execCall nnn s = .next t ∧ t.params = s.params := by
  rw [execCall_eq]
  split <;> exact ⟨_, rfl, rfl⟩

theorem execLdB_params (x : Fin nr) (s : State nr rw pw iw nk) : ∃ t, execLdB x s = .next t ∧ t.params = s.params := by
  rw [execLdB_eq]
  split <;> exact ⟨_, rfl, rfl⟩

theorem execLdMemRegs_params (x : Fin nr) (s : State nr rw pw iw nk) :
    ∃ t, execLdMemRegs x s = .next t ∧ t.params = s.params := by
  rw [execLdMemRegs_eq]
  split <;> exact ⟨_, rfl, rfl⟩

theorem execLdRegsMem_params (x : Fin nr) (s : State nr rw pw iw nk) :
    ∃ t, execLdRegsMem x s = .next t ∧ t.params = s.params := by
  rw [execLdRegsMem_eq]
  split
  · exact ⟨_, rfl, by simp⟩
  · exact ⟨_, rfl, rfl⟩

theorem execDrw_params [NeZero nr] (x y : Fin nr) (n : Nat) (s : State nr rw pw iw nk) :
    ∃ t, execDrw x y n s = .next t ∧ t.params = s.params := by
  rw [execDrw_eq]
  split <;> exact ⟨_, rfl, rfl⟩

/-- No instruction changes the parameters (log 7). The arms not named here update one state by the operations of R80. -/
theorem execAt_params (h : 16 ≤ nr) (i : Instr) (s : State nr rw pw iw nk) :
    ∃ t, execAt h i s = .next t ∧ t.params = s.params := by
  have : NeZero nr := ⟨by omega⟩
  cases i
  case ret => exact execRet_params s
  case call nnn => exact execCall_params nnn s
  case drw x y n => exact execDrw_params _ _ n s
  case ldK x => exact ⟨_, rfl, s.keyWaitPoll_params _⟩
  case ldB x => exact execLdB_params _ s
  case ldMemRegs x => exact execLdMemRegs_params _ s
  case ldRegsMem x => exact execLdRegsMem_params _ s
  all_goals exact ⟨_, rfl, rfl⟩

theorem stepAt_params (h : 16 ≤ nr) (s : State nr rw pw iw nk) : ∃ t, stepAt h s = .next t ∧ t.params = s.params := by
  rcases cycle_cases (execAt h) s.takeHostInput with
    ⟨_, _, hc⟩ | ⟨x, _, _, hc⟩ | ⟨_, _, _, _, hc⟩ | ⟨_, _, _, _, _, _, hc⟩ | ⟨_, i, _, _, _, _, hc⟩
  · exact ⟨_, hc, rfl⟩
  · exact ⟨_, hc, s.takeHostInput.keyWaitPoll_params x⟩
  · exact ⟨_, hc, rfl⟩
  · exact ⟨_, hc, rfl⟩
  · obtain ⟨t, ht, hp⟩ := execAt_params h i s.takeHostInput
    exact ⟨t, hc.trans ht, hp⟩

/-! ### The machine at R7's sizes -/

theorem execAt_hardware (i : Instr) (s : State) : execAt (Nat.le_refl 16) i s = exec i s := by
  cases i <;> rfl

theorem stepAt_hardware (s : State) : stepAt (Nat.le_refl 16) s = step s :=
  congrArg (cycle · s.takeHostInput) (funext fun i => funext fun t => execAt_hardware i t)

/-! ### Reset and boot with given parameters -/

theorem State.getV_resetWith (p : Params) (x : Fin nr) : (State.resetWith p nr rw pw iw nk).getV x = 0 := by
  simp [State.getV, State.resetWith]

theorem State.toNat_pc_resetWith {p : Params} (h : p.loadAddr < 2 ^ pw) :
    (State.resetWith p nr rw pw iw nk).pc.toNat = p.loadAddr :=
  (BitVec.toNat_ofNat ..).trans (Nat.mod_eq_of_lt h)

/-- Memory at reset begins with the glyphs (R75). -/
theorem State.glyphs_byteAt_resetWith {p : Params} {a : Nat} (h : a < p.glyphs.length) :
    p.glyphs[a]? = some ((State.resetWith p nr rw pw iw nk).byteAt a) := by
  simp [State.byteAt, State.resetWith, Memory.read, unlistedByte, h]

theorem State.boot_params {p : Params} {rom : List Byte} {now : Nat} {s : State nr rw pw iw nk}
    (h : State.boot p rom now nr rw pw iw nk = some s) : s.params = p := by
  unfold State.boot at h
  split at h
  · cases h; rfl
  · cases h

/-! ### Where registers, pc and I wrap (R33) -/

theorem State.toNat_advance_pc (s : State nr rw pw iw nk) : s.advance.pc.toNat = (s.pc.toNat + 2) % 2 ^ pw := by
  simp [BitVec.toNat_add]

/-- 7xnn adds modulo `2 ^ REG_W` and writes no other register (R173). -/
theorem execAt_addImm (h : 16 ≤ nr) (x : RegIdx) (nn : Byte) (s : State nr rw pw iw nk) :
    ∃ t, execAt h (.addImm x nn) s = .next t ∧
      (t.getV (Fin.castLE h x)).toNat = ((s.getV (Fin.castLE h x)).toNat + nn.toNat) % 2 ^ rw ∧
      (∀ k, k ≠ Fin.castLE h x → t.getV k = s.getV k) ∧ t.pc.toNat = (s.pc.toNat + 2) % 2 ^ pw := by
  refine ⟨_, rfl, ?_, ?_, ?_⟩
  · simp [writeResult, BitVec.toNat_add]
  · intro k hk
    exact State.getV_setV_of_ne _ hk
  · exact State.toNat_advance_pc _

/-- Fx1E adds modulo `2 ^ I_W` (R211). -/
theorem execAt_addI (h : 16 ≤ nr) (x : RegIdx) (s : State nr rw pw iw nk) :
    ∃ t, execAt h (.addI x) s = .next t ∧ t.i.toNat = (s.i.toNat + (s.getV (Fin.castLE h x)).toNat) % 2 ^ iw := by
  refine ⟨_, rfl, ?_⟩
  simp [byteWord, BitVec.toNat_add]

end

/-! ### The statements of the family -/

/-- Settles O7: the two cases of `nextHostInput`, each put into `takeHostInput`. -/
theorem hostInputIsListedOrFree : Obligations.HostInputIsListedOrFree := by
  unfold Obligations.HostInputIsListedOrFree
  refine ⟨fun s h hs hh => ?_, fun s hh => ?_⟩
  · simp [step, State.takeHostInput, State.nextHostInput_of_cons hh, hh]
  · simp [step, State.takeHostInput, State.nextHostInput_of_nil hh, freeHostInput, hh]

/-- Settles O60: this hardware's values by evaluation, the rest from what reset, boot and a step do at any sizes. -/
theorem parametersAreArguments : Obligations.ParametersAreArguments := by
  unfold Obligations.ParametersAreArguments
  refine ⟨rfl, rfl, rfl, rfl, rfl, rfl, rfl, rfl, rfl, ?_, by decide, execAt_hardware, stepAt_hardware, ?_⟩
  · intro a ha
    exact State.glyphs_byteAt_resetWith (p := Params.hardware) ha
  · intro nr rw pw iw nk
    refine ⟨?_, ?_, ?_⟩
    · exact fun p => ⟨rfl, State.getV_resetWith p, State.toNat_pc_resetWith⟩
    · exact fun p rom now s hs => State.boot_params hs
    · intro h s
      refine ⟨?_, fun x nn => execAt_addImm h x nn s, fun x => execAt_addI h x s⟩
      intro t ht
      obtain ⟨t', ht', hp⟩ := stepAt_params h s
      cases ht'.symm.trans ht
      exact hp

end Sys2Proof.Machine

/-! Proofs, state (spec/10_state.md): all an executed instruction can do, what that leaves unchanged, and the invariant. -/

namespace Sys2Proof.Machine

/-! ### All an instruction can do -/

/-- What an executed instruction makes of the state, by the units it writes and with the condition under which it does: the
meanings of spec/40 to 44 read as transitions, and the faults of R300 with the record each leaves (R301). `exec_effect` ties it
to `exec`. -/
inductive Effect (s : State) : Instr → State → Prop where
  /-- The V registers of the instruction's row of R32, if any, then the advance. -/
  | registers {i : Instr} {v : Vector Byte 16} (hpc : i.pcClass = .advance)
      (hv : ∀ k, i.writesReg k = false → State.getV { s with v := v } k = s.getV k) :
      Effect s i (State.advance { s with v := v })
  /-- Annn, Fx1E and Fx29 (R210 to R212). -/
  | index {i : Instr} {a : Word} (hpc : i.pcClass = .advance) (hi : i.writesI = true) : Effect s i (s.setI a).advance
  /-- The skips (R142). -/
  | skip {i : Instr} {c : Bool} (hpc : i.pcClass = .skip) : Effect s i (s.skipIf c)
  /-- 1nnn (R147). -/
  | jump {nnn : Addr12} : Effect s (.jp nnn) (s.setPc (addrWord nnn))
  /-- Bnnn (R153). -/
  | jumpV0 {nnn : Addr12} : Effect s (.jpV0 nnn) (s.setPc (byteWord (s.getV 0) + addrWord nnn))
  /-- 2nnn on a stack that is not full (R148). -/
  | call {nnn : Addr12} (hfree : s.params.stackCapacity ≠ some s.stack.length) :
      Effect s (.call nnn) (State.setPc { s with stack := s.stack ++ [s.pc + 2] } (addrWord nnn))
  /-- 00EE on a stack that is not empty (R146). -/
  | ret {st : List Word} {a : Word} (hst : s.stack = st ++ [a]) : Effect s .ret (State.setPc { s with stack := st } a)
  /-- 00E0 (R246). -/
  | clear : Effect s .cls (State.advance { s with disp := Display.clear s.params })
  /-- Dxyn with its sprite in memory (R247). -/
  | draw {x y : RegIdx} {n : Nat} {d : Display} {f : Byte} (hfit : n = 0 ∨ s.i.toNat + n ≤ s.params.memSize)
      (hd : d.length = s.disp.length) : Effect s (.drw x y n) (State.setV { s with disp := d } vF f).advance
  /-- Fx15 (R274). -/
  | timer {x : RegIdx} : Effect s (.ldDtVx x) (s.timerSet (s.getV x)).advance
  /-- Fx0A with a key pressed (R272). -/
  | keyTaken {x : RegIdx} {k : Key} (hkey : s.key = some k) : Effect s (.ldK x) (s.takeKey x k)
  /-- Fx0A with no key pressed (R272). -/
  | keyAwaited {x : RegIdx} (hkey : s.key = none) : Effect s (.ldK x) { s with waitX := some x }
  /-- Fx33 with its three bytes in memory (R213). -/
  | storeDigits {x : RegIdx} (hfit : s.i.toNat + 3 ≤ s.params.memSize) :
      Effect s (.ldB x) (State.advance { s with mem := s.mem.writeAll s.params s.i.toNat (bcdDigits (s.getV x)) })
  /-- Fx55 with its block in memory (R214). -/
  | storeRegs {x : RegIdx} {a : Word} (hfit : s.i.toNat + x.val < s.params.memSize) :
      Effect s (.ldMemRegs x)
        (State.setI { s with mem := s.mem.writeAll s.params s.i.toNat (s.regsUpTo x) } a).advance
  /-- Fx65 with its block in memory (R215). -/
  | loadRegs {x : RegIdx} {v : Vector Byte 16} {a : Word} (hfit : s.i.toNat + x.val < s.params.memSize)
      (hv : ∀ k, x < k → State.getV { s with v := v } k = s.getV k) :
      Effect s (.ldRegsMem x) (State.setI { s with v := v } a).advance
  /-- 00EE on an empty stack (R146, R300 code 2). -/
  | underflow (hempty : s.stack = []) : Effect s .ret (s.enterFault .stackUnderflow (some (encode .ret)) none)
  /-- 2nnn on a full stack (R144, R300 code 4). -/
  | overflow {nnn : Addr12} (hfull : s.params.stackCapacity = some s.stack.length) :
      Effect s (.call nnn) (s.enterFault .stackOverflow (some (encode (.call nnn))) none)
  /-- A transfer that leaves memory (R302, R300 code 3). -/
  | outOfBounds {i : Instr} {a : Nat} (hi : i.mayFault = true) (hret : i ≠ .ret) (ha : s.params.memSize ≤ a) :
      Effect s i (s.enterFault .outOfBounds (some (encode i)) (some a))

section
variable {s : State} {i : Instr} {x : RegIdx}

theorem Effect.of_writeResult (r : Byte) (hpc : i.pcClass = .advance) (hreg : ∀ k, i.writesReg k = (k == x)) :
    Effect s i (writeResult x r s) := by
  refine .registers hpc fun k hk => State.getV_setV_of_ne r ?_
  simpa [hreg] using hk

theorem Effect.of_writeResultThenFlag (r f : Byte) (hpc : i.pcClass = .advance)
    (hreg : ∀ k, i.writesReg k = (k == x || k == vF)) : Effect s i (writeResultThenFlag x r f s) := by
  refine .registers hpc fun k hk => ?_
  obtain ⟨hkx, hkF⟩ : k ≠ x ∧ k ≠ vF := by simpa [hreg] using hk
  exact (State.getV_setV_of_ne f hkF).trans (State.getV_setV_of_ne r hkx)

theorem Effect.of_writeFlagThenShift (f : Byte) (shift : Byte → Byte) (hpc : i.pcClass = .advance)
    (hreg : ∀ k, i.writesReg k = (k == x || k == vF)) : Effect s i (writeFlagThenShift x f shift s) := by
  refine .registers hpc fun k hk => ?_
  obtain ⟨hkx, hkF⟩ : k ≠ x ∧ k ≠ vF := by simpa [hreg] using hk
  exact (State.getV_setV_of_ne _ hkx).trans (State.getV_setV_of_ne f hkF)

end

/-- A block load changes the registers only (R215). -/
theorem State.loadRegs_eq_withRegisters (s : State) (bytes : List Byte) :
    s.loadRegs bytes = { s with v := (s.loadRegs bytes).v } := by
  simp only [State.loadRegs]

/-- A block load leaves the registers beyond its list (R215). -/
theorem State.getV_loadRegs_of_length_le {s : State} {bytes : List Byte} {k : RegIdx} (h : bytes.length ≤ k.val) :
    (s.loadRegs bytes).getV k = s.getV k := by
  simp [State.getV_loadRegs, h]

theorem execRet_effect (s : State) : ∃ t, execRet s = .next t ∧ Effect s .ret t := by
  rcases s.stack.eq_nil_or_concat' with hnil | ⟨st, a, hconcat⟩
  · exact ⟨_, execRet_of_nil hnil, .underflow hnil⟩
  · exact ⟨_, execRet_of_concat hconcat, .ret hconcat⟩

theorem execCall_effect (nnn : Addr12) (s : State) : ∃ t, execCall nnn s = .next t ∧ Effect s (.call nnn) t := by
  rw [execCall_eq]
  split
  next hfull => exact ⟨_, rfl, .overflow hfull⟩
  next hfree => exact ⟨_, rfl, .call hfree⟩

theorem execDrw_effect (x y : RegIdx) (n : Nat) (s : State) :
    ∃ t, execDrw x y n s = .next t ∧ Effect s (.drw x y n) t := by
  rw [execDrw_eq]
  split
  next hfit => exact ⟨_, rfl, .draw hfit (Display.length_drawSprite ..)⟩
  next => exact ⟨_, rfl, .outOfBounds rfl nofun (Nat.le_max_right ..)⟩

theorem execLdK_effect (x : RegIdx) (s : State) : ∃ t, execLdK x s = .next t ∧ Effect s (.ldK x) t := by
  cases hkey : s.key with
  | none => exact ⟨_, rfl, State.keyWaitPoll_none x hkey ▸ .keyAwaited hkey⟩
  | some k => exact ⟨_, rfl, State.keyWaitPoll_some x hkey ▸ .keyTaken hkey⟩

theorem execLdB_effect (x : RegIdx) (s : State) : ∃ t, execLdB x s = .next t ∧ Effect s (.ldB x) t := by
  rw [execLdB_eq]
  split
  next hfit => exact ⟨_, rfl, .storeDigits hfit⟩
  next => exact ⟨_, rfl, .outOfBounds rfl nofun (Nat.le_max_right ..)⟩

theorem execLdMemRegs_effect (x : RegIdx) (s : State) :
    ∃ t, execLdMemRegs x s = .next t ∧ Effect s (.ldMemRegs x) t := by
  rw [execLdMemRegs_eq]
  split
  next hfit => exact ⟨_, rfl, .storeRegs hfit⟩
  next => exact ⟨_, rfl, .outOfBounds rfl nofun (Nat.le_max_right ..)⟩

theorem execLdRegsMem_effect (x : RegIdx) (s : State) :
    ∃ t, execLdRegsMem x s = .next t ∧ Effect s (.ldRegsMem x) t := by
  rw [execLdRegsMem_eq]
  split
  next hfit =>
    rw [State.loadRegs_eq_withRegisters]
    refine ⟨_, rfl, .loadRegs hfit fun k hk => ?_⟩
    rw [← State.loadRegs_eq_withRegisters]
    exact State.getV_loadRegs_of_length_le (by simpa [blockLength] using hk)
  next => exact ⟨_, rfl, .outOfBounds rfl nofun (Nat.le_max_right ..)⟩

/-- Every instruction has a next state, and it is one of these effects (R140, R300). -/
theorem exec_effect (i : Instr) (s : State) : ∃ t, exec i s = .next t ∧ Effect s i t := by
  cases i with
  | ret => exact execRet_effect s
  | call nnn => exact execCall_effect nnn s
  | jp nnn => exact ⟨_, rfl, .jump⟩
  | jpV0 nnn => exact ⟨_, rfl, .jumpV0⟩
  | cls => exact ⟨_, rfl, .clear⟩
  | drw x y n => exact execDrw_effect x y n s
  | ldK x => exact execLdK_effect x s
  | ldB x => exact execLdB_effect x s
  | ldMemRegs x => exact execLdMemRegs_effect x s
  | ldRegsMem x => exact execLdRegsMem_effect x s
  | ldDtVx x => exact ⟨_, rfl, .timer⟩
  | ldStVx x => exact ⟨_, rfl, .registers (v := s.v) rfl fun _ _ => rfl⟩
  | seImm | sneImm | seReg | sneReg | skp | sknp => exact ⟨_, rfl, .skip rfl⟩
  | ldI | addI | ldF => exact ⟨_, rfl, .index rfl rfl⟩
  | ldImm | addImm | ldReg | orReg | andReg | xorReg | rnd | ldVxDt =>
    exact ⟨_, rfl, .of_writeResult _ rfl fun _ => rfl⟩
  | addReg | sub | subn => exact ⟨_, rfl, .of_writeResultThenFlag _ _ rfl fun _ => rfl⟩
  | shr | shl => exact ⟨_, rfl, .of_writeFlagThenShift _ _ rfl fun _ => rfl⟩

theorem effect_of_exec {i : Instr} {s t : State} (h : exec i s = .next t) : Effect s i t := by
  obtain ⟨u, hu, heffect⟩ := exec_effect i s
  cases hu.symm.trans h
  exact heffect

/-! ### What an instruction leaves unchanged -/

theorem Effect.getV_eq {s t : State} {i : Instr} {k : RegIdx} (h : Effect s i t) (hk : i.writesReg k = false) :
    t.getV k = s.getV k := by
  cases h with
  | registers _ hv => exact hv k hk
  | draw => exact State.getV_setV_of_ne _ (by simpa [Instr.writesReg] using hk)
  | @keyTaken x c => exact State.getV_setV_of_ne (BitVec.ofNat 8 c.val) (by simpa [Instr.writesReg] using hk)
  | loadRegs _ hv => exact hv k (by simpa [Instr.writesReg] using hk)
  | _ => rfl

theorem Effect.i_eq {s t : State} {i : Instr} (h : Effect s i t) (hi : i.writesI = false) : t.i = s.i := by
  cases h with
  | index _ hwrites => simp [hwrites] at hi
  | storeRegs | loadRegs => simp [Instr.writesI] at hi
  | _ => rfl

theorem Effect.inputs_eq {s t : State} {i : Instr} (h : Effect s i t) :
    t.now = s.now ∧ t.rand = s.rand ∧ t.host = s.host ∧ t.draws = s.draws := by
  cases h <;> exact ⟨rfl, rfl, rfl, rfl⟩

theorem Effect.status_eq_or_faulted {s t : State} {i : Instr} (h : Effect s i t) :
    t.status = s.status ∨ ∃ r, t = { s with status := .faulted r } ∧ r.pc = s.pc ∧ r.op = some (encode i) := by
  cases h with
  | underflow | overflow | outOfBounds => exact .inr ⟨_, rfl, rfl, rfl⟩
  | _ => exact .inl rfl

/-! ### The operations keep the invariant

Where `pc` or memory changes no wait may be pending, since the invariant ties a pending wait to the instruction at `pc`; where
`pc` changes the machine has to run, since a fault record is tied to `pc` too. -/

/-- An instruction can only be fetched from within memory (R141). -/
theorem State.pc_le_of_instrAtPc {s : State} {i : Instr} (h : s.instrAtPc = some i) : s.pc.toNat + 2 ≤ s.params.memSize := by
  by_contra hpc
  simp [State.instrAtPc, State.fetch_eq, hpc] at h

theorem State.instrAtPc_of_decode {s : State} {op : Word} {i : Instr} (hf : s.fetch = .ok op) (hd : decode op = .ok i) :
    s.instrAtPc = some i := by
  simp [State.instrAtPc, hf, hd]

theorem toNat_addrWord_le (nnn : Addr12) : (addrWord nnn : Word).toNat ≤ 0xFFF := by
  have := nnn.isLt
  simp [addrWord]
  omega

theorem toNat_jumpV0_le (b : Byte) (nnn : Addr12) : (byteWord b + addrWord nnn : Word).toNat ≤ 0x10FE := by
  have hb : (byteWord b : Word).toNat ≤ 0xFF := by
    have := b.isLt
    simp [byteWord]
    omega
  have := toNat_addrWord_le nnn
  rw [BitVec.toNat_add]
  omega

theorem toNat_add_two_le (a : Word) : (a + 2).toNat ≤ a.toNat + 2 := by
  rw [BitVec.toNat_add]
  exact Nat.mod_le ..

theorem toNat_add_four_le (a : Word) : (a + 4).toNat ≤ a.toNat + 4 := by
  rw [BitVec.toNat_add]
  exact Nat.mod_le ..

namespace MachineInv

section
variable {s : State} (hs : MachineInv s)
include hs

theorem takeHostInput : MachineInv s.takeHostInput :=
  { hs with clock := Nat.le_add_right_of_le hs.clock }

theorem withRegisters (v : Vector Byte 16) : MachineInv { s with v := v } := { hs with }

theorem setI (a : Word) : MachineInv (s.setI a) := { hs with }

theorem withDisplay {d : Display} (hd : d.wf s.params) : MachineInv { s with disp := d } := { hs with display := hd }

theorem timerSet (b : Byte) : MachineInv (s.timerSet b) := { hs with clock := Nat.le_refl _ }

theorem enterFault (hw : s.waitX = none) (code : FaultCode) (op : Option Word) (addr : Option Nat) :
    MachineInv (s.enterFault code op addr) :=
  { hs with faulted := fun _ hr => by cases hr; exact ⟨rfl, hw⟩ }

theorem await {x : RegIdx} (hr : s.status = .running) (hi : s.instrAtPc = some (.ldK x)) :
    MachineInv { s with waitX := some x } :=
  { hs with
    waiting := fun _ hx => by cases hx; exact hi
    faulted := fun _ hf => nomatch hr.symm.trans hf }

theorem withStack {st : List Word} (hst : ∀ a ∈ st, a.toNat ≤ s.params.memSize)
    (hcap : ∀ c, s.params.stackCapacity = some c → st.length ≤ c) : MachineInv { s with stack := st } :=
  { hs with stackBound := hst, stackCapacity := hcap }

theorem withMemory {m : Memory} (hw : s.waitX = none) (hm : m.wf s.params) : MachineInv { s with mem := m } :=
  { hs with
    memory := hm
    waiting := fun _ hx => nomatch hw.symm.trans hx }

theorem setPc {a : Word} (hr : s.status = .running) (hw : s.waitX = none)
    (ha : a.toNat ≤ max 0x10FE (s.params.memSize + 2)) : MachineInv (s.setPc a) :=
  { hs with
    pcBound := ha
    waiting := fun _ hx => nomatch hw.symm.trans hx
    faulted := fun _ hf => nomatch hr.symm.trans hf }

theorem advance (hr : s.status = .running) (hw : s.waitX = none) (hpc : s.pc.toNat + 2 ≤ s.params.memSize) :
    MachineInv s.advance := by
  have := toNat_add_two_le s.pc
  exact hs.setPc hr hw (by omega)

theorem skipIf (c : Bool) (hr : s.status = .running) (hw : s.waitX = none) (hpc : s.pc.toNat + 2 ≤ s.params.memSize) :
    MachineInv (s.skipIf c) := by
  have := toNat_add_two_le s.pc
  have := toNat_add_four_le s.pc
  refine hs.setPc hr hw ?_
  split <;> omega

theorem takeKey {x : RegIdx} (k : Key) (hr : s.status = .running) (hi : s.instrAtPc = some (.ldK x)) :
    MachineInv (s.takeKey x k) := by
  have hended : MachineInv { s.setV x (BitVec.ofNat 8 k.val) with waitX := none } :=
    { hs with
      waiting := nofun
      faulted := fun r hf => nomatch hr.symm.trans hf }
  exact hended.advance hr rfl (State.pc_le_of_instrAtPc hi)

/-- A poll keeps the invariant where Fx0A stands at `pc`, whether it was pending or is being executed (R272). -/
theorem keyWaitPoll {x : RegIdx} (hr : s.status = .running) (hi : s.instrAtPc = some (.ldK x)) :
    MachineInv (s.keyWaitPoll x) := by
  cases hkey : s.key with
  | none => exact State.keyWaitPoll_none x hkey ▸ hs.await hr hi
  | some k => exact State.keyWaitPoll_some x hkey ▸ hs.takeKey k hr hi

theorem push (hpc : s.pc.toNat + 2 ≤ s.params.memSize) (hfree : s.params.stackCapacity ≠ some s.stack.length) :
    MachineInv { s with stack := s.stack ++ [s.pc + 2] } := by
  refine hs.withStack (fun a ha => ?_) (fun c hc => ?_)
  · rcases List.mem_append.mp ha with ha | ha
    · exact hs.stackBound a ha
    · cases List.mem_singleton.mp ha
      exact (toNat_add_two_le s.pc).trans hpc
  · have hle := hs.stackCapacity c hc
    have hne : c ≠ s.stack.length := fun e => hfree (e ▸ hc)
    rw [List.length_append, List.length_singleton]
    omega

theorem pop {st : List Word} {a : Word} (hst : s.stack = st ++ [a]) : MachineInv { s with stack := st } := by
  refine hs.withStack (fun b hb => hs.stackBound b (by simp [hst, hb])) (fun c hc => ?_)
  have hle := hs.stackCapacity c hc
  rw [hst, List.length_append] at hle
  omega

/-! ### The cycle keeps the invariant -/

/-- Every effect of the instruction at `pc` of a running machine keeps the invariant. -/
theorem of_effect {i : Instr} {t : State} (hr : s.status = .running) (hw : s.waitX = none) (hi : s.instrAtPc = some i)
    (h : Effect s i t) : MachineInv t := by
  have hpc := State.pc_le_of_instrAtPc hi
  cases h with
  | registers => exact (hs.withRegisters _).advance hr hw hpc
  | index => exact (hs.setI _).advance hr hw hpc
  | skip => exact hs.skipIf _ hr hw hpc
  | @jump nnn =>
    have := toNat_addrWord_le nnn
    exact hs.setPc hr hw (by omega)
  | @jumpV0 nnn =>
    have := toNat_jumpV0_le (s.getV 0) nnn
    exact hs.setPc hr hw (by omega)
  | @call nnn hfree =>
    have := toNat_addrWord_le nnn
    exact (hs.push hpc hfree).setPc hr hw (by omega)
  | @ret st a hst =>
    have hle : a.toNat ≤ s.params.memSize := hs.stackBound a (by simp [hst])
    have ha : a.toNat ≤ max 0x10FE (s.params.memSize + 2) := by omega
    exact (hs.pop hst).setPc hr hw ha
  | clear => exact (hs.withDisplay Display.wf_clear).advance hr hw hpc
  | draw _ hd => exact ((hs.withDisplay (hd.trans hs.display)).withRegisters _).advance hr hw hpc
  | timer => exact (hs.timerSet _).advance hr hw hpc
  | keyTaken => exact hs.takeKey _ hr hi
  | keyAwaited => exact hs.await hr hi
  | storeDigits hfit => exact (hs.withMemory hw (Memory.wf_writeAll hs.memory hfit)).advance hr hw hpc
  | @storeRegs x _ hfit =>
    have hend : s.i.toNat + (s.regsUpTo x).length ≤ s.params.memSize := by
      rw [s.length_regsUpTo]
      exact hfit
    have hstored := hs.withMemory hw (Memory.wf_writeAll hs.memory hend)
    exact (hstored.setI _).advance hr hw hpc
  | loadRegs => exact ((hs.withRegisters _).setI _).advance hr hw hpc
  | underflow | overflow | outOfBounds => exact hs.enterFault hw ..

theorem of_runStep {t : State} (h : runStep s = .next t) : MachineInv t := by
  rcases cycle_cases exec s with
    ⟨_, _, hc⟩ | ⟨x, hr, hw, hc⟩ | ⟨_, _, hw, _, hc⟩ | ⟨_, _, _, hw, _, _, hc⟩ | ⟨op, i, hr, hw, hf, hd, hc⟩
  · cases hc.symm.trans h
    exact hs
  · cases hc.symm.trans h
    exact hs.keyWaitPoll hr (hs.waiting x hw)
  · cases hc.symm.trans h
    exact hs.enterFault hw ..
  · cases hc.symm.trans h
    exact hs.enterFault hw ..
  · exact hs.of_effect hr hw (State.instrAtPc_of_decode hf hd) (effect_of_exec (hc.symm.trans h))

end

end MachineInv

/-! ### Reset and the invariant -/

/-- A launched ROM fits, and the state is the reset state with it (R350, R353). -/
theorem State.boot_eq_some {p : Params} {rom : List Byte} {now : Nat} {s : State} (h : State.boot p rom now = some s) :
    p.loadAddr + rom.length ≤ p.memSize ∧
      s = { State.resetWith p with mem := Memory.writeAll [] p p.loadAddr rom, now := now, timerInstant := now } := by
  unfold State.boot at h
  split at h
  next hfit => exact ⟨by simpa [romFits] using hfit, (Option.some.inj h).symm⟩
  next => cases h

theorem machineInv_of_boot {p : Params} {rom : List Byte} {now : Nat} {s : State} (hp : p.legal)
    (h : State.boot p rom now = some s) : MachineInv s := by
  obtain ⟨hfit, rfl⟩ := State.boot_eq_some h
  have hpc : (BitVec.ofNat 16 p.loadAddr).toNat ≤ p.loadAddr := by
    rw [BitVec.toNat_ofNat]
    exact Nat.mod_le ..
  exact {
    params := hp
    memory := Memory.wf_writeAll (Memory.wf_nil p) hfit
    display := Display.wf_clear
    clock := Nat.le_refl now
    pcBound := hpc.trans (by simp only [State.resetWith]; omega)
    stackBound := nofun
    stackCapacity := fun c _ => Nat.zero_le c
    waiting := nofun
    faulted := nofun }

/-! ### The statements of the family -/

/-- Settles O59: the host's input and the cycle each keep the invariant. -/
theorem stepKeepsInvariant : Obligations.StepKeepsInvariant := by
  unfold Obligations.StepKeepsInvariant
  intro s t hs h
  exact hs.takeHostInput.of_runStep h

/-- Settles O46, from the effects of an instruction. -/
theorem onlyNamedRegistersWritten : Obligations.OnlyNamedRegistersWritten := by
  unfold Obligations.OnlyNamedRegistersWritten
  intro i s t k h hk
  exact (effect_of_exec h).getV_eq hk

/-- Settles O47, from the effects of an instruction. -/
theorem indexWrittenByFive : Obligations.IndexWrittenByFive := by
  unfold Obligations.IndexWrittenByFive
  intro i s t h hi
  exact (effect_of_exec h).i_eq hi

/-- Settles O53, from the effects of an instruction. -/
theorem instructionsKeepInputsAndStatus : Obligations.InstructionsKeepInputsAndStatus := by
  unfold Obligations.InstructionsKeepInputsAndStatus
  intro i s t h
  have heffect := effect_of_exec h
  obtain ⟨hnow, hrand, hhost, hdraws⟩ := heffect.inputs_eq
  exact ⟨hnow, hrand, hhost, hdraws, heffect.status_eq_or_faulted⟩

/-- Settles O10: the cycle answers the state the host's input left. -/
theorem faultedMachineStaysAsItIs : Obligations.FaultedMachineStaysAsItIs := by
  unfold Obligations.FaultedMachineStaysAsItIs
  intro s r hs
  exact ⟨s.takeHostInput, runStep_faulted hs, rfl⟩

/-- Settles O58: this hardware's reset is the launch of an empty ROM at time 0. -/
theorem invariantAtReset : Obligations.InvariantAtReset := by
  unfold Obligations.InvariantAtReset
  refine ⟨?_, fun p rom now s hp h => machineInv_of_boot hp h⟩
  have hboot : State.boot Params.hardware [] 0 = some State.reset := rfl
  exact machineInv_of_boot (by decide) hboot

/-- Beyond the glyphs memory resets to 0 (R45). -/
theorem State.byteAt_reset_of_le {a : Nat} (ha : 0x50 ≤ a) : State.reset.byteAt a = 0 := by
  have hlen : Params.hardware.glyphs.length ≤ a := ha
  exact List.getD_eq_default _ _ hlen

/-- Settles O54: by evaluation, but for what is said of every register, pixel and address. -/
theorem resetValues : Obligations.ResetValues := by
  unfold Obligations.ResetValues
  refine ⟨rfl, State.getV_resetWith _, rfl, rfl, List.length_replicate, fun px py => Display.pixel_clear px py, rfl, rfl, rfl,
    rfl, rfl, by decide, fun a ha => State.byteAt_reset_of_le ha, rfl, rfl, rfl, rfl⟩

end Sys2Proof.Machine

/-! Proofs, memory (spec/20_memory.md): the entries of a canonical memory, the bytes Fx55 stores as a fetch reads them, and who
writes each unit of the state. -/

namespace Sys2Proof.Machine

/-! ### The entries of a canonical memory -/

/-- An entry of a memory with rising addresses is not shadowed by an earlier one. -/
theorem Memory.read_of_mem {m : Memory} {p : Params} {a : Nat} {b : Byte} (hm : m.Pairwise fun c d => c.1 < d.1)
    (h : (a, b) ∈ m) : m.read p a = b := by
  induction m with
  | nil => cases h
  | cons e m ih =>
    obtain ⟨hhead, htail⟩ := List.pairwise_cons.mp hm
    rcases List.mem_cons.mp h with rfl | h
    · simp [Memory.read]
    · have hne : e.1 ≠ a := Nat.ne_of_lt (hhead _ h)
      simpa [Memory.read, hne] using ih htail h

/-- A byte that differs from what its address reads as unlisted is listed. -/
theorem Memory.mem_of_read_ne {m : Memory} {p : Params} {a : Nat} (h : m.read p a ≠ unlistedByte p a) :
    (a, m.read p a) ∈ m := by
  induction m with
  | nil => exact absurd rfl h
  | cons e m ih =>
    obtain ⟨k, b⟩ := e
    by_cases hk : k = a
    · simp [Memory.read, hk]
    · simp only [Memory.read, if_neg hk] at h ⊢
      exact List.mem_cons_of_mem _ (ih h)

/-- What a canonical memory lists is determined by what it reads as (log 9). -/
theorem Memory.mem_iff_read {m : Memory} {p : Params} (hm : m.wf p) (a : Nat) (b : Byte) :
    (a, b) ∈ m ↔ m.read p a = b ∧ b ≠ unlistedByte p a := by
  obtain ⟨hrising, hlisted⟩ := hm
  constructor
  · intro h
    exact ⟨Memory.read_of_mem hrising h, (hlisted _ h).2⟩
  · rintro ⟨rfl, hb⟩
    exact Memory.mem_of_read_ne hb

/-- Canonical memories list the same entries, in the one rising order, when they read alike. -/
theorem Memory.eq_of_read_eq {m m' : Memory} {p : Params} (hm : m.wf p) (hm' : m'.wf p)
    (h : ∀ a, m.read p a = m'.read p a) : m = m' := by
  have : Std.Irrefl fun c d : Host.Cell => c.1 < d.1 := ⟨fun c => Nat.lt_irrefl c.1⟩
  have : Std.Antisymm fun c d : Host.Cell => c.1 < d.1 := ⟨fun _ _ hcd hdc => absurd hdc (Nat.lt_asymm hcd)⟩
  refine List.Pairwise.eq_of_mem_iff hm.1 hm'.1 fun c => ?_
  rw [Memory.mem_iff_read hm, Memory.mem_iff_read hm', h]

/-! ### The block Fx55 stores, as memory and as a fetch sees it -/

/-- Fx55 within memory has stored each register up to Vx at its address (R214). -/
theorem byteAt_of_execLdMemRegs {x k : RegIdx} {s t : State} (hfit : s.i.toNat + x.val < s.params.memSize)
    (h : execLdMemRegs x s = .next t) (hk : k ≤ x) : t.byteAt (s.i.toNat + k.val) = s.getV k := by
  rw [execLdMemRegs_eq, if_pos hfit] at h
  cases h
  exact (s.read_block x k hk).trans (BitVec.setWidth_eq _)

/-- A fetch within memory gives the two bytes at `pc`, wherever `pc` is put (R141). -/
theorem State.fetch_at {s : State} {p : Word} (h : p.toNat + 2 ≤ s.params.memSize) :
    State.fetch { s with pc := p } = .ok (s.byteAt p.toNat ++ s.byteAt (p.toNat + 1)) := by
  rw [State.fetch_eq, if_pos h]
  rfl

/-! ### Who writes each unit of the state (R37, R39 to R42, R72), and that no instruction writes the parameters (log 7) -/

section
variable {s t : State} {i : Instr} (h : Effect s i t)
include h

theorem Effect.mem_eq (hB : ∀ x, i ≠ .ldB x) (hR : ∀ x, i ≠ .ldMemRegs x) : t.mem = s.mem := by
  cases h with
  | storeDigits => exact absurd rfl (hB _)
  | storeRegs => exact absurd rfl (hR _)
  | _ => rfl

theorem Effect.stack_eq (hcall : ∀ nnn, i ≠ .call nnn) (hret : i ≠ .ret) : t.stack = s.stack := by
  cases h with
  | call => exact absurd rfl (hcall _)
  | ret => exact absurd rfl hret
  | _ => rfl

theorem Effect.disp_eq (hcls : i ≠ .cls) (hdrw : ∀ x y n, i ≠ .drw x y n) : t.disp = s.disp := by
  cases h with
  | clear => exact absurd rfl hcls
  | draw => exact absurd rfl (hdrw _ _ _)
  | _ => rfl

theorem Effect.timer_eq (hset : ∀ x, i ≠ .ldDtVx x) :
    t.timerValue = s.timerValue ∧ t.timerInstant = s.timerInstant := by
  cases h with
  | timer => exact absurd rfl (hset _)
  | _ => exact ⟨rfl, rfl⟩

theorem Effect.waitX_eq (hK : ∀ x, i ≠ .ldK x) : t.waitX = s.waitX := by
  cases h with
  | keyTaken | keyAwaited => exact absurd rfl (hK _)
  | _ => rfl

theorem Effect.key_eq : t.key = s.key := by
  cases h <;> rfl

theorem Effect.params_eq : t.params = s.params := by
  cases h <;> rfl

end

/-! ### The statements of the family -/

/-- Settles O35: the two bytes at `pc` are those of Vk and of the register after it. -/
theorem fetchSeesStoredBytes : Obligations.FetchSeesStoredBytes := by
  unfold Obligations.FetchSeesStoredBytes
  intro x k s t p hfit hexec hk hp
  have hstore : execLdMemRegs x s = .next t := hexec
  have hlt : k.val < x.val := hk
  have hnext : (k + 1).val = k.val + 1 := Fin.val_add_one_of_lt' (by omega)
  have hparams : t.params = s.params := (effect_of_exec hexec).params_eq
  have hpc : p.toNat + 2 ≤ t.params.memSize := by rw [hparams]; omega
  have haddr : p.toNat + 1 = s.i.toNat + (k + 1).val := by omega
  rw [State.fetch_at hpc, haddr, hp, byteAt_of_execLdMemRegs hfit hstore hk.le,
    byteAt_of_execLdMemRegs hfit hstore (Fin.add_one_le_of_lt hk)]

/-- Settles O36: the laws of a write, and that a canonical memory's entries are determined by its bytes. -/
theorem canonicalMemoriesAreEqual : Obligations.CanonicalMemoriesAreEqual := by
  unfold Obligations.CanonicalMemoriesAreEqual
  refine ⟨fun p m a b hm ha => ?_, fun p m m' => Memory.eq_of_read_eq⟩
  exact ⟨Memory.wf_write b hm ha, fun c => Memory.read_write m p a c b⟩

/-- Settles O48, from the effects of an instruction. -/
theorem eachUnitHasItsWriters : Obligations.EachUnitHasItsWriters := by
  unfold Obligations.EachUnitHasItsWriters
  intro i s t h
  have heffect := effect_of_exec h
  exact ⟨heffect.mem_eq, heffect.stack_eq, heffect.disp_eq, heffect.timer_eq, heffect.waitX_eq, heffect.key_eq⟩

end Sys2Proof.Machine

/-! Proofs, encoding (spec/30_encoding.md): that decoding and encoding are inverse, that every row of the opcode map is the row
of an instruction and selects the opcodes that decode to one of that row, and what a step makes of a rejected opcode. -/

namespace Sys2Proof

/-! ### Decoding an encoded instruction -/

theorem decode_encode {i : Instr} (hi : i.wellFormed = true) : decode (encode i) = .ok i := by
  cases i with
  | cls | ret => rfl
  | jp | call | ldI | jpV0 => simp [encode, decode, fieldHi_packNNN, fieldNNN_packNNN]
  | seImm | sneImm | ldImm | addImm | rnd | skp | sknp =>
    simp [encode, decode, fieldHi_packXNN, fieldX_packXNN, fieldNN_packXNN, regOfBits_bitsOfReg]
  | ldVxDt | ldK | ldDtVx | ldStVx | addI | ldF | ldB | ldMemRegs | ldRegsMem =>
    simp [encode, decode, decodeGroupF, fieldHi_packXNN, fieldX_packXNN, fieldNN_packXNN, regOfBits_bitsOfReg]
  | seReg | sneReg =>
    simp [encode, decode, fieldHi_packXYN, fieldX_packXYN, fieldY_packXYN, fieldN_packXYN, regOfBits_bitsOfReg]
  | ldReg | orReg | andReg | xorReg | addReg | sub | shr | subn | shl =>
    simp [encode, decode, decodeGroup8, fieldHi_packXYN, fieldX_packXYN, fieldY_packXYN, fieldN_packXYN,
      regOfBits_bitsOfReg]
  | drw x y n =>
    have hn : n < 16 := by simpa [Instr.wellFormed] using hi
    simp [encode, decode, fieldHi_packXYN, fieldX_packXYN, fieldY_packXYN, fieldN_packXYN, regOfBits_bitsOfReg,
      Nat.mod_eq_of_lt hn]

/-! ### Encoding a decoded opcode -/

section
variable {op : Word} {hi : BitVec 4} (hhi : fieldHi op = hi)
include hhi

theorem packNNN_of_fields {nnn : Addr12} (hnnn : fieldNNN op = nnn) : packNNN hi nnn = op := by
  rw [← hhi, ← hnnn, packNNN_fields]

theorem packXNN_of_fields {nn : Byte} (hnn : fieldNN op = nn) : packXNN hi (regOfBits (fieldX op)) nn = op := by
  rw [← hhi, ← hnn, packXNN_fields]

theorem packXYN_of_fields {n : BitVec 4} (hn : fieldN op = n) :
    packXYN hi (regOfBits (fieldX op)) (regOfBits (fieldY op)) n = op := by
  rw [← hhi, ← hn, packXYN_fields]

end

/-- What group 8 decodes to has the operands and the `n` it was decoded from, the ignored `y` of the shifts included (R106). -/
theorem encode_of_decodeGroup8 {x y : RegIdx} {n : BitVec 4} {i : Instr} (h : decodeGroup8 x y n = .ok i) :
    encode i = packXYN 0x8 x y n ∧ i.wellFormed = true := by
  unfold decodeGroup8 at h
  split at h <;> cases h <;> exact ⟨rfl, rfl⟩

/-- What group F decodes to has the operand and the `nn` it was decoded from. -/
theorem encode_of_decodeGroupF {x : RegIdx} {nn : Byte} {i : Instr} (h : decodeGroupF x nn = .ok i) :
    encode i = packXNN 0xF x nn ∧ i.wellFormed = true := by
  unfold decodeGroupF at h
  split at h <;> cases h <;> exact ⟨rfl, rfl⟩

/-- What an opcode decodes to has the opcode's own high nibble, operands and dispatched field, arm by arm (R103). -/
theorem encode_of_decode {op : Word} {i : Instr} (h : decode op = .ok i) : encode i = op ∧ i.wellFormed = true := by
  simp only [decode] at h
  split at h
  case h_1 hhi =>
    split at h
    next hnnn => cases h; exact ⟨packNNN_of_fields hhi hnnn, rfl⟩
    next =>
      split at h
      next hnnn => cases h; exact ⟨packNNN_of_fields hhi hnnn, rfl⟩
      next => cases h
  case h_2 hhi | h_3 hhi | h_11 hhi | h_12 hhi => cases h; exact ⟨packNNN_of_fields hhi rfl, rfl⟩
  case h_4 hhi | h_5 hhi | h_7 hhi | h_8 hhi | h_13 hhi => cases h; exact ⟨packXNN_of_fields hhi rfl, rfl⟩
  case h_6 hhi | h_10 hhi =>
    split at h
    next hn => cases h; exact ⟨packXYN_of_fields hhi hn, rfl⟩
    next => cases h
  case h_9 hhi =>
    obtain ⟨henc, hwf⟩ := encode_of_decodeGroup8 h
    exact ⟨henc.trans (packXYN_of_fields hhi rfl), hwf⟩
  case h_14 hhi =>
    cases h
    have hn : (fieldN op).toNat < 16 := (fieldN op).isLt
    exact ⟨by simpa [encode] using packXYN_of_fields hhi rfl, by simpa [Instr.wellFormed] using hn⟩
  case h_15 hhi =>
    split at h
    next hnn => cases h; exact ⟨packXNN_of_fields hhi hnn, rfl⟩
    next =>
      split at h
      next hnn => cases h; exact ⟨packXNN_of_fields hhi hnn, rfl⟩
      next => cases h
  case h_16 =>
    -- the last arm is for every high nibble the fifteen before it leave
    have hhi : fieldHi op = 0xF#4 := by
      generalize fieldHi op = b at *
      clear h
      revert b
      decide
    obtain ⟨henc, hwf⟩ := encode_of_decodeGroupF h
    exact ⟨henc.trans (packXNN_of_fields hhi rfl), hwf⟩

/-! ### The rows of the opcode map -/

/-- The opcode map is the rows of the instructions. -/
theorem mem_opcodeTable_iff {r : OpcodeRow} : r ∈ opcodeTable ↔ ∃ i : Instr, i.row = r := by
  constructor
  · have hrows : ∀ q ∈ opcodeTable, ∃ i : Instr, i.row = q := by
      simp only [opcodeTable, List.forall_mem_append, List.forall_mem_cons, List.not_mem_nil, false_imp_iff,
        implies_true, and_true]
      and_intros <;> exact ⟨_, rfl⟩
    exact hrows r
  · rintro ⟨i, rfl⟩
    cases i <;> simp [opcodeTable, Instr.row]

open Laws.EncodesRow in
/-- Every instruction's opcode selects its row, each by its own law. -/
theorem row_selects_encode : ∀ i : Instr, i.row.selects (encode i) = true
  | .cls => cls | .ret => ret | .jp a => jp a | .call a => call a | .ldI a => ldI a | .jpV0 a => jpV0 a
  | .seImm x b => seImm x b | .sneImm x b => sneImm x b | .ldImm x b => ldImm x b | .addImm x b => addImm x b
  | .rnd x b => rnd x b | .seReg x y => seReg x y | .sneReg x y => sneReg x y | .ldReg x y => ldReg x y
  | .orReg x y => orReg x y | .andReg x y => andReg x y | .xorReg x y => xorReg x y | .addReg x y => addReg x y
  | .sub x y => sub x y | .shr x y => shr x y | .subn x y => subn x y | .shl x y => shl x y | .drw x y n => drw x y n
  | .skp x => skp x | .sknp x => sknp x | .ldVxDt x => ldVxDt x | .ldK x => ldK x | .ldDtVx x => ldDtVx x
  | .ldStVx x => ldStVx x | .addI x => addI x | .ldF x => ldF x | .ldB x => ldB x | .ldMemRegs x => ldMemRegs x
  | .ldRegsMem x => ldRegsMem x

/-- The opcodes that select a row agree with its pattern on every field that its mask keeps (R104). -/
theorem extractLsb'_eq_of_selects {mask pattern op : Word} {start len : Nat}
    (h : OpcodeRow.selects ⟨mask, pattern⟩ op = true) (hmask : mask.extractLsb' start len = BitVec.allOnes len) :
    op.extractLsb' start len = pattern.extractLsb' start len := by
  have hand : op &&& mask = pattern := by simpa [OpcodeRow.selects] using h
  rw [← hand, BitVec.extractLsb'_and, hmask, BitVec.and_allOnes]

/-- An opcode that selects a row decodes to an instruction of that row: the row's mask keeps the fields `decode` dispatches on
(R103, R104). -/
theorem exists_decode_of_selects {op : Word} {i : Instr} (h : i.row.selects op = true) :
    ∃ j, decode op = .ok j ∧ j.row = i.row := by
  cases i with
  | jp | call | ldI | jpV0 | seImm | sneImm | ldImm | addImm | rnd | drw =>
    have hhi : fieldHi op = _ := extractLsb'_eq_of_selects h rfl
    exact ⟨_, by rw [decode, hhi]; rfl, by rfl⟩
  | cls | ret =>
    have hhi : fieldHi op = _ := extractLsb'_eq_of_selects h rfl
    have hnnn : fieldNNN op = _ := extractLsb'_eq_of_selects h rfl
    exact ⟨_, by rw [decode, hhi, hnnn]; rfl, by rfl⟩
  | seReg | sneReg | ldReg | orReg | andReg | xorReg | addReg | sub | shr | subn | shl =>
    have hhi : fieldHi op = _ := extractLsb'_eq_of_selects h rfl
    have hn : fieldN op = _ := extractLsb'_eq_of_selects h rfl
    exact ⟨_, by rw [decode, hhi, hn]; rfl, by rfl⟩
  | skp | sknp | ldVxDt | ldK | ldDtVx | ldStVx | addI | ldF | ldB | ldMemRegs | ldRegsMem =>
    have hhi : fieldHi op = _ := extractLsb'_eq_of_selects h rfl
    have hnn : fieldNN op = _ := extractLsb'_eq_of_selects h rfl
    exact ⟨_, by rw [decode, hhi, hnn]; rfl, by rfl⟩

theorem row_selects_of_decode {op : Word} {i : Instr} (h : decode op = .ok i) : i.row.selects op = true :=
  (encode_of_decode h).1 ▸ row_selects_encode i

theorem selects_iff_eq_row {op : Word} {i : Instr} {r : OpcodeRow} (h : decode op = .ok i) (hr : r ∈ opcodeTable) :
    r.selects op = true ↔ r = i.row := by
  constructor
  · intro hsel
    obtain ⟨k, rfl⟩ := mem_opcodeTable_iff.mp hr
    obtain ⟨j, hj, hrow⟩ := exists_decode_of_selects hsel
    cases hj.symm.trans h
    exact hrow.symm
  · rintro rfl
    exact row_selects_of_decode h

theorem exists_decode_error_iff {op : Word} :
    (∃ e, decode op = .error e) ↔ ∀ r ∈ opcodeTable, r.selects op = false := by
  constructor
  · rintro ⟨e, he⟩ r hr
    obtain ⟨i, rfl⟩ := mem_opcodeTable_iff.mp hr
    refine Bool.eq_false_iff.mpr fun hsel => ?_
    obtain ⟨j, hj, -⟩ := exists_decode_of_selects hsel
    cases he.symm.trans hj
  · intro hnone
    cases hd : decode op with
    | error e => exact ⟨e, rfl⟩
    | ok i =>
      have hunselected := hnone i.row (mem_opcodeTable_iff.mpr ⟨i, rfl⟩)
      exact absurd (row_selects_of_decode hd) (Bool.eq_false_iff.mp hunselected)

end Sys2Proof

namespace Sys2Proof.Machine

/-! ### The step -/

theorem runStep_of_decode_error {s : State} {op : Word} {e : DecodeReject} (hr : s.status = .running) (hw : s.waitX = none)
    (hf : s.fetch = .ok op) (hd : decode op = .error e) :
    runStep s = .next (s.enterFault .decodeError (some op) none) := by
  simp [runStep_fetching hr hw, hf, hd]

/-- The cycle always has a next state, since every instruction has one (R109, R140). -/
theorem exists_runStep_eq_next (s : State) : ∃ t, runStep s = .next t := by
  rcases cycle_cases exec s with
    ⟨_, _, hc⟩ | ⟨_, _, _, hc⟩ | ⟨_, _, _, _, hc⟩ | ⟨_, _, _, _, _, _, hc⟩ | ⟨_, i, _, _, _, _, hc⟩
  · exact ⟨_, hc⟩
  · exact ⟨_, hc⟩
  · exact ⟨_, hc⟩
  · exact ⟨_, hc⟩
  · obtain ⟨t, ht, -⟩ := exec_effect i s
    exact ⟨t, hc.trans ht⟩

/-! ### The statements of the family -/

/-- Settles O2, by the formats of the encoder. -/
theorem decodeOfEncode : Obligations.DecodeOfEncode := by
  unfold Obligations.DecodeOfEncode
  exact fun _ hi => decode_encode hi

/-- Settles O3, by the branches of the decoder. -/
theorem encodeOfDecode : Obligations.EncodeOfDecode := by
  unfold Obligations.EncodeOfDecode
  exact fun _ _ h => encode_of_decode h

/-- Settles O4: a selected row is that of an instruction the opcode decodes to, and the row of a decoded instruction is in the
map. -/
theorem rejectedOpcodesMatchNoRow : Obligations.RejectedOpcodesMatchNoRow := by
  unfold Obligations.RejectedOpcodesMatchNoRow
  exact fun _ => exists_decode_error_iff

/-- Settles O5: a selected row is that of an instruction the opcode decodes to, and it decodes to one only. -/
theorem decodedOpcodeSelectsOneRow : Obligations.DecodedOpcodeSelectsOneRow := by
  unfold Obligations.DecodedOpcodeSelectsOneRow
  exact fun _ _ h _ hr => selects_iff_eq_row h hr

/-- Settles O9: the decoder rejects the opcode, and the cycle turns that into the fault. -/
theorem illegalOpcodeRaisesDecodeError : Obligations.IllegalOpcodeRaisesDecodeError := by
  unfold Obligations.IllegalOpcodeRaisesDecodeError
  intro s op hr hw hf hnone
  obtain ⟨e, hd⟩ := exists_decode_error_iff.mpr hnone
  exact runStep_of_decode_error hr hw hf hd

/-- Settles O11, from the cases of the cycle. -/
theorem everyStepAnswersNext : Obligations.EveryStepAnswersNext := by
  unfold Obligations.EveryStepAnswersNext
  exact fun s => exists_runStep_eq_next s.takeHostInput

/-- Settles O1, by evaluating the decoder on the spec's words. -/
theorem specWordsDecode : Obligations.SpecWordsDecode := by
  unfold Obligations.SpecWordsDecode
  decide

end Sys2Proof.Machine

/-! Proofs, control flow (spec/40_control_flow.md): the cycle's fetch and execution, the next pc of each class, the meanings that
transfer control, and which instructions read the inputs of a step. -/

namespace Sys2Proof.Machine

/-! ### The next pc of each class (R142) -/

section
variable {s t : State} {i : Instr} (h : Effect s i t) (hr : t.status = .running)
include h hr

theorem Effect.pc_of_advance (hi : i.pcClass = .advance) : t.pc = s.pc + 2 := by
  cases h with
  | registers | index | clear | draw | timer | storeDigits | storeRegs | loadRegs => rfl
  | skip hpc => exact nomatch hpc.symm.trans hi
  | jump | jumpV0 | call | ret | keyTaken | keyAwaited => cases hi
  | underflow | overflow | outOfBounds => cases hr

theorem Effect.pc_of_skip (hi : i.pcClass = .skip) : t.pc = s.pc + 4 ∨ t.pc = s.pc + 2 := by
  cases h with
  | @skip _ c =>
    cases c
    · exact .inr rfl
    · exact .inl rfl
  | registers hpc | index hpc => exact nomatch hpc.symm.trans hi
  | jump | jumpV0 | call | ret | clear | draw | timer | keyTaken | keyAwaited | storeDigits | storeRegs | loadRegs => cases hi
  | underflow | overflow | outOfBounds => cases hr

theorem Effect.pc_of_set (hi : i.pcClass = .set) :
    i = .ret ∧ s.stack.getLast? = some t.pc ∨ (∃ nnn, i = .jp nnn ∧ t.pc = addrWord nnn) ∨
      (∃ nnn, i = .call nnn ∧ t.pc = addrWord nnn) ∨
      (∃ nnn, i = .jpV0 nnn ∧ t.pc = byteWord (s.getV 0) + addrWord nnn) := by
  cases h with
  | ret hst => exact .inl ⟨rfl, by simp [hst]⟩
  | jump => exact .inr (.inl ⟨_, rfl, rfl⟩)
  | call => exact .inr (.inr (.inl ⟨_, rfl, rfl⟩))
  | jumpV0 => exact .inr (.inr (.inr ⟨_, rfl, rfl⟩))
  | registers hpc | index hpc | skip hpc => exact nomatch hpc.symm.trans hi
  | clear | draw | timer | keyTaken | keyAwaited | storeDigits | storeRegs | loadRegs => cases hi
  | underflow | overflow | outOfBounds => cases hr

theorem Effect.pc_of_hold (hi : i.pcClass = .hold) : t.pc = if s.key = none then s.pc else s.pc + 2 := by
  cases h with
  | keyTaken hkey | keyAwaited hkey => simp [hkey]
  | registers hpc | index hpc | skip hpc => exact nomatch hpc.symm.trans hi
  | jump | jumpV0 | call | ret | clear | draw | timer | storeDigits | storeRegs | loadRegs => cases hi
  | underflow | overflow | outOfBounds => cases hr

end

/-! ### Which instructions read the key, the clock and the random byte (R140) -/

/-- The state with other inputs, each made of the old one. Leaving an input is the identity, so one law says of every input at
once that an instruction does not read it. -/
def State.mapInputs (key : Option Key → Option Key) (now : Nat → Nat) (rand : Byte → Byte) (s : State) : State :=
  { s with key := key s.key, now := now s.now, rand := rand s.rand }

section
variable {key : Option Key → Option Key} {now : Nat → Nat} {rand : Byte → Byte} {s : State}

theorem State.mapInputs_params : (s.mapInputs key now rand).params = s.params := rfl
theorem State.mapInputs_i : (s.mapInputs key now rand).i = s.i := rfl
theorem State.byteAt_mapInputs (a : Nat) : (s.mapInputs key now rand).byteAt a = s.byteAt a := rfl
theorem State.mapInputs_key : (s.mapInputs key now rand).key = key s.key := rfl
theorem State.mapInputs_rand : (s.mapInputs key now rand).rand = rand s.rand := rfl

theorem State.isPressed_mapInputs (hkey : key s.key = s.key) (b : Byte) :
    (s.mapInputs key now rand).isPressed b = s.isPressed b := by
  simp only [State.isPressed, State.mapInputs_key, hkey]

theorem State.timerObserved_mapInputs (hnow : now s.now = s.now) :
    (s.mapInputs key now rand).timerObserved = s.timerObserved := by
  simp [State.timerObserved, State.elapsedTicks, State.mapInputs, hnow]

theorem State.timerSet_mapInputs (hnow : now s.now = s.now) (b : Byte) :
    (s.mapInputs key now rand).timerSet b = (s.timerSet b).mapInputs key now rand := by
  simp [State.timerSet, State.mapInputs, hnow]

theorem State.keyWaitPoll_mapInputs (hkey : key s.key = s.key) (x : RegIdx) :
    (s.mapInputs key now rand).keyWaitPoll x = (s.keyWaitPoll x).mapInputs key now rand := by
  cases hk : s.key with
  | none =>
    have hk' : (s.mapInputs key now rand).key = none := State.mapInputs_key.trans (hkey.trans hk)
    rw [State.keyWaitPoll_none x hk, State.keyWaitPoll_none x hk']
    rfl
  | some c =>
    have hk' : (s.mapInputs key now rand).key = some c := State.mapInputs_key.trans (hkey.trans hk)
    rw [State.keyWaitPoll_some x hk, State.keyWaitPoll_some x hk']
    rfl

theorem State.loadRegs_mapInputs (bytes : List Byte) :
    (s.mapInputs key now rand).loadRegs bytes = (s.loadRegs bytes).mapInputs key now rand := by
  simp only [State.loadRegs, State.mapInputs]

theorem execRet_mapInputs :
    execRet (s.mapInputs key now rand) = Result.mapNext (State.mapInputs key now rand) (execRet s) := by
  rcases s.stack.eq_nil_or_concat' with hst | ⟨st, a, hst⟩
  · have hst' : (s.mapInputs key now rand).stack = [] := hst
    rw [execRet_of_nil hst, execRet_of_nil hst']
    rfl
  · have hst' : (s.mapInputs key now rand).stack = st ++ [a] := hst
    rw [execRet_of_concat hst, execRet_of_concat hst']
    rfl

theorem execLdRegsMem_mapInputs (x : RegIdx) :
    execLdRegsMem x (s.mapInputs key now rand) = Result.mapNext (State.mapInputs key now rand) (execLdRegsMem x s) := by
  simp only [execLdRegsMem_eq, apply_ite (Result.mapNext _), State.loadRegs_mapInputs, State.byteAt_mapInputs,
    State.mapInputs_i, State.mapInputs_params]
  -- which registers the load leaves is not looked at
  generalize s.loadRegs _ = u
  rfl

/-- An instruction does the same whatever the inputs it does not read: an input either stays as it is, or the instruction is none
of those that read it (R140, R40, R183). The arms with a condition of their own decide it by units that are no inputs. -/
theorem exec_mapInputs (i : Instr)
    (hkey : key s.key = s.key ∨ (∀ x, i ≠ .skp x) ∧ (∀ x, i ≠ .sknp x) ∧ ∀ x, i ≠ .ldK x)
    (hnow : now s.now = s.now ∨ (∀ x, i ≠ .ldVxDt x) ∧ ∀ x, i ≠ .ldDtVx x)
    (hrand : rand s.rand = s.rand ∨ ∀ x nn, i ≠ .rnd x nn) :
    exec i (s.mapInputs key now rand) = Result.mapNext (State.mapInputs key now rand) (exec i s) := by
  cases i with
  | rnd x nn =>
    have hsame : rand s.rand = s.rand := hrand.resolve_right fun h => h x nn rfl
    simp only [exec, execRnd, State.mapInputs_rand, hsame]
    rfl
  | ldVxDt x =>
    have hsame : now s.now = s.now := hnow.resolve_right fun ⟨h, _⟩ => h x rfl
    simp only [exec, execLdVxDt, State.timerObserved_mapInputs hsame]
    rfl
  | ldDtVx x =>
    have hsame : now s.now = s.now := hnow.resolve_right fun ⟨_, h⟩ => h x rfl
    simp only [exec, execLdDtVx, State.timerSet_mapInputs hsame]
    rfl
  | skp x =>
    have hsame : key s.key = s.key := hkey.resolve_right fun ⟨h, _, _⟩ => h x rfl
    simp only [exec, execSkp, State.isPressed_mapInputs hsame]
    rfl
  | sknp x =>
    have hsame : key s.key = s.key := hkey.resolve_right fun ⟨_, h, _⟩ => h x rfl
    simp only [exec, execSknp, State.isPressed_mapInputs hsame]
    rfl
  | ldK x =>
    have hsame : key s.key = s.key := hkey.resolve_right fun ⟨_, _, h⟩ => h x rfl
    simp only [exec, execLdK, State.keyWaitPoll_mapInputs hsame]
    rfl
  | ret => exact execRet_mapInputs
  | ldRegsMem x => exact execLdRegsMem_mapInputs x
  | call | drw | ldB | ldMemRegs =>
    simp only [exec, execCall_eq, execDrw_eq, execLdB_eq, execLdMemRegs_eq, apply_ite (Result.mapNext _)]
    rfl
  | _ => rfl

end

/-! ### What the cycle fetches and executes -/

theorem runStep_of_decode_ok {s : State} {op : Word} {i : Instr} (hr : s.status = .running) (hw : s.waitX = none)
    (hf : s.fetch = .ok op) (hd : decode op = .ok i) : runStep s = exec i s := by
  simp [runStep_fetching hr hw, hf, hd]

theorem runStep_of_fetch_error {s : State} {a : Nat} (hr : s.status = .running) (hw : s.waitX = none)
    (hf : s.fetch = .error a) : runStep s = .next (s.enterFault .outOfBounds none (some a)) := by
  simp [runStep_fetching hr hw, hf]

/-! ### Skips and the target of Bnnn -/

theorem State.skipIf_of_iff {s : State} {c : Bool} {p : Prop} [Decidable p] (h : c = true ↔ p) :
    s.skipIf c = { s with pc := if p then s.pc + 4 else s.pc + 2 } := by
  simp [State.skipIf, State.setPc, h]

/-- The sum of a byte and a 12-bit address fits 16 bits (R153). -/
theorem toNat_jumpV0 (b : Byte) (nnn : Addr12) : (byteWord b + addrWord nnn : Word).toNat = b.toNat + nnn.toNat := by
  have hb : (byteWord b : Word).toNat = b.toNat := BitVec.toNat_setWidth_of_le (by decide)
  have hn : (addrWord nnn : Word).toNat = nnn.toNat := BitVec.toNat_setWidth_of_le (by decide)
  have := b.isLt
  have := nnn.isLt
  rw [BitVec.toNat_add, hb, hn]
  omega

/-! ### The statements of the family -/

/-- Settles O49, class by class, from the effects of an instruction. -/
theorem nextPcByClass : Obligations.NextPcByClass := by
  unfold Obligations.NextPcByClass
  intro i s t _ h hr
  have heffect := effect_of_exec h
  exact ⟨heffect.pc_of_advance hr, heffect.pc_of_skip hr, heffect.pc_of_set hr, heffect.pc_of_hold hr⟩

/-- Settles O52: in each clause one input changes and the other two stay. -/
theorem inputsReadOnlyWhereNamed : Obligations.InputsReadOnlyWhereNamed := by
  unfold Obligations.InputsReadOnlyWhereNamed
  intro i s
  refine ⟨fun r hrand => ?_, fun n hget hset => ?_, fun k hskp hsknp hwait => ?_⟩
  · exact exec_mapInputs (key := id) (now := id) (rand := fun _ => r) i (.inl rfl) (.inl rfl) (.inr hrand)
  · exact exec_mapInputs (key := id) (now := fun _ => n) (rand := id) i (.inl rfl) (.inr ⟨hget, hset⟩) (.inl rfl)
  · exact exec_mapInputs (key := fun _ => k) (now := id) (rand := id) i (.inr ⟨hskp, hsknp, hwait⟩) (.inl rfl) (.inl rfl)

/-- Settles O6: taking the host's input leaves what is fetched. -/
theorem stepRunsDecodedInstruction : Obligations.StepRunsDecodedInstruction := by
  unfold Obligations.StepRunsDecodedInstruction
  intro s op i hr hw hf hd
  exact runStep_of_decode_ok (s := s.takeHostInput) hr hw (s.fetch_takeHostInput.trans hf) hd

/-- Settles O8, by the two cases of a fetch. -/
theorem fetchIsBigEndianOrFaults : Obligations.FetchIsBigEndianOrFaults := by
  unfold Obligations.FetchIsBigEndianOrFaults
  refine ⟨fun s hfit => State.fetch_at hfit, fun s hr hw hout => ?_⟩
  have hnofit : ¬ s.pc.toNat + 2 ≤ s.params.memSize := by omega
  exact runStep_of_fetch_error hr hw (s.fetch_eq.trans (if_neg hnofit))

/-- Settles O15, by whether the stack is empty. -/
theorem returnPopsOrUnderflows : Obligations.ReturnPopsOrUnderflows := by
  unfold Obligations.ReturnPopsOrUnderflows
  exact ⟨fun _ _ _ hst => execRet_of_concat hst, fun _ hst => execRet_of_nil hst⟩

/-- Settles O16, by evaluation. -/
theorem jumpSetsPc : Obligations.JumpSetsPc := by
  unfold Obligations.JumpSetsPc
  exact fun _ _ => rfl

/-- Settles O17, by whether the stack is full. -/
theorem callPushesAndJumps : Obligations.CallPushesAndJumps := by
  unfold Obligations.CallPushesAndJumps
  intro nnn s
  exact ⟨fun hfree => (execCall_eq nnn s).trans (if_neg hfree), fun hfull => (execCall_eq nnn s).trans (if_pos hfull)⟩

/-- Settles O18: the return pops what the call pushed. -/
theorem callThenReturn : Obligations.CallThenReturn := by
  unfold Obligations.CallThenReturn
  intro nnn s hfree
  exact ⟨_, (execCall_eq nnn s).trans (if_neg hfree), execRet_of_concat rfl⟩

/-- Settles O19, from the skip of a Boolean condition. -/
theorem skipsOnImmediate : Obligations.SkipsOnImmediate := by
  unfold Obligations.SkipsOnImmediate
  intro x nn s
  exact ⟨congrArg Host.Outcome.next (State.skipIf_of_iff (by simp)),
    congrArg Host.Outcome.next (State.skipIf_of_iff (by simp))⟩

/-- Settles O20, from the skip of a Boolean condition. -/
theorem skipsOnRegisters : Obligations.SkipsOnRegisters := by
  unfold Obligations.SkipsOnRegisters
  intro x y s
  exact ⟨congrArg Host.Outcome.next (State.skipIf_of_iff beq_iff_eq),
    congrArg Host.Outcome.next (State.skipIf_of_iff bne_iff_ne)⟩

/-- Settles O21: the jump sets `pc` only, to a sum that fits. -/
theorem jumpV0SetsPc : Obligations.JumpV0SetsPc := by
  unfold Obligations.JumpV0SetsPc
  intro nnn s
  exact ⟨_, rfl, rfl, toNat_jumpV0 (s.getV 0) nnn⟩

end Sys2Proof.Machine

/-! Proofs, arithmetic (spec/41_alu.md): the two orders in which a result and a flag are written, what that leaves in each
register, and the flags and results of bytes as numbers. -/

namespace Sys2Proof.Machine

section
variable {nr rw pw iw nk : Nat}

/-! ### One write, and two to one register -/

theorem getV_writeResult_self (x : Fin nr) (r : BitVec rw) (s : State nr rw pw iw nk) : (writeResult x r s).getV x = r :=
  s.getV_setV_self x r

theorem getV_writeResult_of_ne {x k : Fin nr} {r : BitVec rw} {s : State nr rw pw iw nk} (h : k ≠ x) :
    (writeResult x r s).getV k = s.getV k :=
  State.getV_setV_of_ne r h

/-- Of two writes to one register the second stays. -/
theorem State.setV_setV_self (s : State nr rw pw iw nk) (x : Fin nr) (a b : BitVec rw) : (s.setV x a).setV x b = s.setV x b := by
  simp [State.setV]

variable [NeZero nr]

/-! ### Result first, flag second: the flag stays (R170; log 10) -/

theorem getV_writeResultThenFlag_vF (x : Fin nr) (r f : BitVec rw) (s : State nr rw pw iw nk) :
    (writeResultThenFlag x r f s).getV vF = f :=
  (s.setV x r).getV_setV_self vF f

theorem getV_writeResultThenFlag_self {x : Fin nr} {r f : BitVec rw} {s : State nr rw pw iw nk} (hx : x ≠ vF) :
    (writeResultThenFlag x r f s).getV x = r :=
  (State.getV_setV_of_ne f hx).trans (s.getV_setV_self x r)

theorem getV_writeResultThenFlag_of_ne {x k : Fin nr} {r f : BitVec rw} {s : State nr rw pw iw nk} (hkx : k ≠ x)
    (hkF : k ≠ vF) : (writeResultThenFlag x r f s).getV k = s.getV k :=
  (State.getV_setV_of_ne f hkF).trans (State.getV_setV_of_ne r hkx)

/-! ### Flag first, shift second: the shift stays (R170; log 10) -/

section
variable {x : Fin nr} {f : BitVec rw} {shift : BitVec rw → BitVec rw} {s : State nr rw pw iw nk}

theorem getV_writeFlagThenShift_vF (hx : x ≠ vF) : (writeFlagThenShift x f shift s).getV vF = f :=
  (State.getV_setV_of_ne _ hx.symm).trans (s.getV_setV_self vF f)

theorem getV_writeFlagThenShift_self (hx : x ≠ vF) : (writeFlagThenShift x f shift s).getV x = shift (s.getV x) :=
  (State.getV_setV_self _ x _).trans (congrArg shift (State.getV_setV_of_ne f hx))

theorem getV_writeFlagThenShift_of_ne {k : Fin nr} (hkx : k ≠ x) (hkF : k ≠ vF) :
    (writeFlagThenShift x f shift s).getV k = s.getV k :=
  (State.getV_setV_of_ne _ hkx).trans (State.getV_setV_of_ne f hkF)

end

/-- With `x` = F what is shifted is the flag just written, and the shift is the last write. -/
theorem writeFlagThenShift_vF (f : BitVec rw) (shift : BitVec rw → BitVec rw) (s : State nr rw pw iw nk) :
    writeFlagThenShift vF f shift s = writeResult vF (shift f) s := by
  simp only [writeFlagThenShift, writeResult, State.getV_setV_self, State.setV_setV_self]

/-! ### Flags and results as numbers -/

theorem carryFlag_byte (a b : Byte) : (carryFlag a b : Byte) = if 255 < a.toNat + b.toNat then 1 else 0 := by
  simp [carryFlag, flagByte]

theorem notBorrowFlag_eq (a b : BitVec rw) : notBorrowFlag a b = if b.toNat ≤ a.toNat then 1 else 0 := by
  simp [notBorrowFlag, flagByte]

theorem toNat_sub_byte (a b : Byte) : (a - b).toNat = (a.toNat + 256 - b.toNat) % 256 := by
  have := b.isLt
  rw [BitVec.toNat_sub]
  omega

theorem toNat_shiftRightFlag_byte (a : Byte) : (shiftRightFlag a).toNat = a.toNat % 2 := by
  rw [shiftRightFlag, BitVec.toNat_and]
  exact Nat.and_one_is_mod a.toNat

theorem toNat_shiftLeftFlag_byte (a : Byte) : (shiftLeftFlag a).toNat = a.toNat / 128 := by
  rw [shiftLeftFlag, BitVec.toNat_ushiftRight, Nat.shiftRight_eq_div_pow]

theorem toNat_shiftRight_one (a : Byte) : (a >>> 1).toNat = a.toNat / 2 := by
  rw [BitVec.toNat_ushiftRight, Nat.shiftRight_eq_div_pow]

theorem toNat_shiftLeft_one (a : Byte) : (a <<< 1).toNat = a.toNat * 2 % 256 := by
  rw [BitVec.toNat_shiftLeft, Nat.shiftLeft_eq]

/-- The flag of a right shift has one bit, which a further shift moves out. -/
theorem shiftRightFlag_shiftRight_one (a : Byte) : shiftRightFlag a >>> 1 = 0 := by
  apply BitVec.eq_of_toNat_eq
  rw [toNat_shiftRight_one, toNat_shiftRightFlag_byte]
  change a.toNat % 2 / 2 = 0
  omega

/-- The flag of a left shift, shifted itself. -/
theorem shiftLeftFlag_shiftLeft_one (a : Byte) : shiftLeftFlag a <<< 1 = if 128 ≤ a.toNat then 2 else 0 := by
  have := a.isLt
  apply BitVec.eq_of_toNat_eq
  rw [toNat_shiftLeft_one, toNat_shiftLeftFlag_byte]
  split
  · change a.toNat / 128 * 2 % 256 = 2
    omega
  · change a.toNat / 128 * 2 % 256 = 0
    omega

end

/-! ### The statements of the family -/

/-- Settles O24: the carry is written last. -/
theorem addRegistersWithCarry : Obligations.AddRegistersWithCarry := by
  unfold Obligations.AddRegistersWithCarry
  intro x y s
  refine ⟨_, rfl, rfl, ?_, fun hx => ?_, fun k => getV_writeResultThenFlag_of_ne⟩
  · exact (getV_writeResultThenFlag_vF x _ _ s).trans (carryFlag_byte _ _)
  · exact (congrArg _ (getV_writeResultThenFlag_self hx)).trans (BitVec.toNat_add _ _)

/-- Settles O25: both orders of the operands give the difference, then the flag of the same comparison. -/
theorem subtractionsWithNotBorrow : Obligations.SubtractionsWithNotBorrow := by
  unfold Obligations.SubtractionsWithNotBorrow
  intro x y s
  have hflag (a b : Byte) : (writeResultThenFlag x (a - b) (notBorrowFlag a b) s).getV 15
      = if b.toNat ≤ a.toNat then 1 else 0 :=
    (getV_writeResultThenFlag_vF x _ _ s).trans (notBorrowFlag_eq a b)
  have hdiff (a b : Byte) (hx : x ≠ 15) : ((writeResultThenFlag x (a - b) (notBorrowFlag a b) s).getV x).toNat
      = (a.toNat + 256 - b.toNat) % 256 :=
    (congrArg _ (getV_writeResultThenFlag_self hx)).trans (toNat_sub_byte a b)
  exact ⟨⟨_, rfl, rfl, hflag _ _, hdiff _ _, fun k => getV_writeResultThenFlag_of_ne⟩,
    ⟨_, rfl, rfl, hflag _ _, hdiff _ _, fun k => getV_writeResultThenFlag_of_ne⟩⟩

/-- Settles O26: with `x` other than F the flag does not touch what is shifted. -/
theorem shiftsByOne : Obligations.ShiftsByOne := by
  unfold Obligations.ShiftsByOne
  intro x y s hx
  refine ⟨⟨_, rfl, rfl, ?_, ?_, fun k => getV_writeFlagThenShift_of_ne⟩,
    ⟨_, rfl, rfl, ?_, ?_, fun k => getV_writeFlagThenShift_of_ne⟩⟩
  · exact (congrArg _ (getV_writeFlagThenShift_vF hx)).trans (toNat_shiftRightFlag_byte _)
  · exact (congrArg _ (getV_writeFlagThenShift_self hx)).trans (toNat_shiftRight_one _)
  · exact (congrArg _ (getV_writeFlagThenShift_vF hx)).trans (toNat_shiftLeftFlag_byte _)
  · exact (congrArg _ (getV_writeFlagThenShift_self hx)).trans (toNat_shiftLeft_one _)

/-- Settles O27: VF ends as the flag shifted itself. -/
theorem shiftsOfTheFlagRegister : Obligations.ShiftsOfTheFlagRegister := by
  unfold Obligations.ShiftsOfTheFlagRegister
  intro y s
  constructor
  · rw [← shiftRightFlag_shiftRight_one (s.getV 15)]
    exact congrArg Host.Outcome.next (writeFlagThenShift_vF _ _ s)
  · rw [← shiftLeftFlag_shiftLeft_one (s.getV 15)]
    exact congrArg Host.Outcome.next (writeFlagThenShift_vF _ _ s)

/-- Settles O23: the sum is the only write, to Vx. -/
theorem addImmediateWrapsWithoutFlag : Obligations.AddImmediateWrapsWithoutFlag := by
  unfold Obligations.AddImmediateWrapsWithoutFlag
  intro x nn s
  refine ⟨_, rfl, rfl, ?_, fun k => getV_writeResult_of_ne, fun hx => getV_writeResult_of_ne hx.symm⟩
  rw [getV_writeResult_self, BitVec.setWidth_eq, BitVec.toNat_add]

/-- Settles O22: each writes its result to Vx only; an immediate byte has the width of a register. -/
theorem loadsAndLogic : Obligations.LoadsAndLogic := by
  unfold Obligations.LoadsAndLogic
  intro x y nn s
  have himm : exec (.ldImm x nn) s = .next (writeResult x nn s) :=
    congrArg (fun b => Host.Outcome.next (writeResult x b s)) (BitVec.setWidth_eq nn)
  exact ⟨himm, rfl, rfl, rfl, rfl⟩

/-- Settles O28: the masked byte has the width of a register. -/
theorem randomByteMasked : Obligations.RandomByteMasked := by
  unfold Obligations.RandomByteMasked
  intro x nn s
  exact congrArg (fun b => Host.Outcome.next (writeResult x b s)) (BitVec.setWidth_eq (s.rand &&& nn))

end Sys2Proof.Machine

/-! Proofs, index and memory (spec/42_index_memory.md): what a block write leaves in each byte and a block load in each register,
the transfers within memory and beyond it, and the values I takes. -/

namespace Sys2Proof.Machine

section
variable {nr rw pw iw nk : Nat}

/-! ### Inside and outside a block -/

theorem Memory.read_writeAll_getElem (m : Memory) (p : Params) (a : Nat) {bs : List Byte} {k : Nat} (h : k < bs.length) :
    (m.writeAll p a bs).read p (a + k) = bs[k] := by
  rw [Memory.read_writeAll, if_pos (Nat.le_add_right a k), Nat.add_sub_cancel_left, List.getElem?_eq_getElem h]
  rfl

/-- A block write leaves every byte before and after the block (R72). -/
theorem Memory.read_writeAll_of_outside {m : Memory} {p : Params} {a c : Nat} {bs : List Byte}
    (h : c < a ∨ a + bs.length ≤ c) : (m.writeAll p a bs).read p c = m.read p c := by
  rw [Memory.read_writeAll]
  split
  next hle =>
    have hend : bs.length ≤ c - a := by omega
    rw [List.getElem?_eq_none hend]
    rfl
  next => rfl

/-- The registers a block of `n` bytes reaches, each with its own byte (R215). -/
theorem State.getV_loadRegs_range (s : State nr rw pw iw nk) (f : Nat → Byte) {n : Nat} {k : Fin nr} (h : k.val < n) :
    (s.loadRegs ((List.range n).map f)).getV k = (f k.val).setWidth rw := by
  simp [State.getV_loadRegs, h]

end

/-! ### The transfers within memory, and beyond it (R213 to R215) -/

section
variable {x : RegIdx} {s : State}

theorem exec_ldB_of_fit (h : s.i.toNat + 2 < s.params.memSize) :
    exec (.ldB x) s
      = .next { s with mem := s.mem.writeAll s.params s.i.toNat (bcdDigits (s.getV x)), pc := s.pc + 2 } :=
  (execLdB_eq x s).trans (if_pos h)

theorem exec_ldB_of_beyond (h : s.params.memSize ≤ s.i.toNat + 2) :
    exec (.ldB x) s
      = .next (s.enterFault .outOfBounds (some (encode (.ldB x))) (some (max s.i.toNat s.params.memSize))) :=
  (execLdB_eq x s).trans (if_neg (Nat.not_lt.mpr h))

theorem exec_ldMemRegs_of_fit (h : s.i.toNat + x.val < s.params.memSize) :
    exec (.ldMemRegs x) s
      = .next { s with
          mem := s.mem.writeAll s.params s.i.toNat (s.regsUpTo x)
          i := s.i + BitVec.ofNat 16 (x.val + 1)
          pc := s.pc + 2 } :=
  (execLdMemRegs_eq x s).trans (if_pos h)

theorem exec_ldMemRegs_of_beyond (h : s.params.memSize ≤ s.i.toNat + x.val) :
    exec (.ldMemRegs x) s
      = .next (s.enterFault .outOfBounds (some (encode (.ldMemRegs x))) (some (max s.i.toNat s.params.memSize))) :=
  (execLdMemRegs_eq x s).trans (if_neg (Nat.not_lt.mpr h))

theorem exec_ldRegsMem_of_fit (h : s.i.toNat + x.val < s.params.memSize) :
    exec (.ldRegsMem x) s
      = .next { s with
          v := (s.loadRegs ((List.range (x.val + 1)).map fun k => s.byteAt (s.i.toNat + k))).v
          i := s.i + BitVec.ofNat 16 (x.val + 1)
          pc := s.pc + 2 } := by
  refine (execLdRegsMem_eq x s).trans ((if_pos h).trans ?_)
  rw [State.loadRegs_eq_withRegisters]
  rfl

theorem exec_ldRegsMem_of_beyond (h : s.params.memSize ≤ s.i.toNat + x.val) :
    exec (.ldRegsMem x) s
      = .next (s.enterFault .outOfBounds (some (encode (.ldRegsMem x))) (some (max s.i.toNat s.params.memSize))) :=
  (execLdRegsMem_eq x s).trans (if_neg (Nat.not_lt.mpr h))

end

/-! ### Digits and the values of I as numbers -/

/-- Each decimal digit of a byte fits the byte that holds it (R213). -/
theorem map_toNat_bcdDigits (b : Byte) :
    (bcdDigits b).map BitVec.toNat = [b.toNat / 100, b.toNat / 10 % 10, b.toNat % 10] := by
  have := b.isLt
  simp only [bcdDigits, List.map_cons, List.map_nil, BitVec.toNat_ofNat, List.cons.injEq, and_true]
  omega

theorem toNat_getElem_bcdDigits (b : Byte) {k : Nat} (hk : k < 3) :
    ((bcdDigits b)[k]'hk).toNat = [b.toNat / 100, b.toNat / 10 % 10, b.toNat % 10][k] :=
  (List.getElem_map (h := hk) BitVec.toNat).symm.trans (getElem_congr_coll (map_toNat_bcdDigits b))

/-- A glyph's address is taken modulo 2^16 (R33, R212; log 7). -/
theorem toNat_glyphAddr (p : Params) (b : Byte) : (glyphAddr p b : Word).toNat = b.toNat * p.glyphBytes % 65536 :=
  BitVec.toNat_ofNat _ _

/-- I plus a byte wraps modulo 2^16 (R211). -/
theorem toNat_add_byteWord (a : Word) (b : Byte) : (a + byteWord b).toNat = (a.toNat + b.toNat) % 65536 := by
  have hb : (byteWord b : Word).toNat = b.toNat := BitVec.toNat_setWidth_of_le (by decide)
  rw [BitVec.toNat_add, hb]

/-! ### The statements of the family -/

/-- Settles O32: the block holds V0 to Vx in order. -/
theorem registersStored : Obligations.RegistersStored := by
  unfold Obligations.RegistersStored
  refine fun x s => ⟨fun hfit => ⟨_, exec_ldMemRegs_of_fit hfit, rfl, fun k hk => ?_, fun a ha => ?_⟩,
    exec_ldMemRegs_of_beyond⟩
  · exact byteAt_of_execLdMemRegs hfit (exec_ldMemRegs_of_fit hfit) hk
  · refine Memory.read_writeAll_of_outside ?_
    rw [s.length_regsUpTo]
    exact ha

/-- Settles O33: the registers up to Vx take the bytes of the block, the others are beyond its length. -/
theorem registersLoaded : Obligations.RegistersLoaded := by
  unfold Obligations.RegistersLoaded
  refine fun x s => ⟨fun hfit => ⟨_, exec_ldRegsMem_of_fit hfit, rfl, fun k hk => ?_, fun k hk => ?_⟩,
    exec_ldRegsMem_of_beyond⟩
  · exact (s.getV_loadRegs_range _ (Nat.lt_succ_of_le hk)).trans (BitVec.setWidth_eq _)
  · have hlength : ((List.range (x.val + 1)).map fun j => s.byteAt (s.i.toNat + j)).length ≤ k.val := by simpa using hk
    exact State.getV_loadRegs_of_length_le hlength

/-- Settles O34: the load reads, at the store's addresses, the bytes the store has put there (O32, O33). -/
theorem storeThenLoadReproduces : Obligations.StoreThenLoadReproduces := by
  unfold Obligations.StoreThenLoadReproduces
  intro x s w hfit
  obtain ⟨t, hstore, ht, hstored, -⟩ := (registersStored x s).1 hfit
  have hparams : t.params = s.params := (effect_of_exec hstore).params_eq
  have hfit' : s.i.toNat + x.val < t.params.memSize := hparams ▸ hfit
  obtain ⟨u, hload, hu, hloaded, hkept⟩ := (registersLoaded x { t with i := s.i, v := w }).1 hfit'
  have hti : t.i = s.i + BitVec.ofNat 16 (x.val + 1) := congrArg (fun r : State => r.i) ht
  have hui : u.i = s.i + BitVec.ofNat 16 (x.val + 1) := congrArg (fun r : State => r.i) hu
  exact ⟨t, u, hstore, hload, fun k hk => (hloaded k hk).trans (hstored k hk), hkept, hti, hui.trans hti.symm⟩

/-- Settles O29: a byte times five is below 2^16. -/
theorem indexLoads : Obligations.IndexLoads := by
  unfold Obligations.IndexLoads
  refine ⟨fun _ _ => rfl, fun x s => ⟨_, rfl, rfl, toNat_glyphAddr s.params (s.getV x), fun hfive => ?_⟩⟩
  have hlt : (s.getV x).toNat * 5 < 65536 := by
    have := (s.getV x).isLt
    omega
  rw [← hfive] at hlt ⊢
  exact (toNat_glyphAddr s.params (s.getV x)).trans (Nat.mod_eq_of_lt hlt)

/-- Settles O30: the sum is the only write beside `pc`. -/
theorem indexAddWraps : Obligations.IndexAddWraps := by
  unfold Obligations.IndexAddWraps
  exact fun x s => ⟨_, rfl, rfl, toNat_add_byteWord s.i (s.getV x)⟩

/-- Settles O31: the block holds the three digits in order. -/
theorem decimalDigitsStored : Obligations.DecimalDigitsStored := by
  unfold Obligations.DecimalDigitsStored
  intro x s
  refine ⟨fun hfit => ?_, exec_ldB_of_beyond⟩
  have hdigit (k : Nat) (hk : k < 3) :
      ((s.mem.writeAll s.params s.i.toNat (bcdDigits (s.getV x))).read s.params (s.i.toNat + k)).toNat
        = [(s.getV x).toNat / 100, (s.getV x).toNat / 10 % 10, (s.getV x).toNat % 10][k] :=
    (congrArg BitVec.toNat (Memory.read_writeAll_getElem _ _ _ hk)).trans (toNat_getElem_bcdDigits _ hk)
  refine ⟨_, exec_ldB_of_fit hfit, rfl, hdigit 0 (by decide), hdigit 1 (by decide), hdigit 2 (by decide),
    fun a h0 h1 h2 => Memory.read_writeAll_of_outside ?_⟩
  change a < s.i.toNat ∨ s.i.toNat + 3 ≤ a
  simp only [indexAddr] at h0 h1 h2
  omega

end Sys2Proof.Machine

/-! Proofs, display (spec/43_display.md): the pixels a sprite covers, what one draw makes of the display and of VF, and two draws
of one sprite. -/

namespace Sys2Proof.Machine

/-! ### Pixels and their place in the grid -/

theorem pixelIndex_of_lt {p : Params} {px py : Nat} (hx : px < p.displayW) (hy : py < p.displayH) :
    pixelIndex p px py = py * p.displayW + px := by
  rw [pixelIndex, Nat.mod_eq_of_lt hx, Nat.mod_eq_of_lt hy]

/-- Coordinates within the grid name an entry of it, at this row-major place (R241). -/
theorem Display.getElem?_eq_pixel {d : Display} {p : Params} {px py : Nat} (hd : d.wf p) (hx : px < p.displayW)
    (hy : py < p.displayH) : d[py * p.displayW + px]? = some (d.pixel p px py) := by
  have hlt : py * p.displayW + px < d.length := by
    calc py * p.displayW + px < (py + 1) * p.displayW := by rw [Nat.succ_mul]; exact Nat.add_lt_add_left hx _
      _ ≤ p.displayH * p.displayW := Nat.mul_le_mul_right _ hy
      _ = d.length := (Nat.mul_comm ..).trans hd.symm
  rw [Display.pixel, pixelIndex_of_lt hx hy, List.getD_eq_getElem _ _ hlt, List.getElem?_eq_getElem hlt]

/-- A pixel is read alike before and after its coordinates wrap (R242). -/
theorem Display.pixel_mod (d : Display) (p : Params) (px py : Nat) :
    d.pixel p (px % p.displayW) (py % p.displayH) = d.pixel p px py := by
  simp only [Display.pixel, pixelIndex, Nat.mod_mod]

/-! ### The pixels a sprite covers -/

section
variable {s : State} {x y : RegIdx} {n : Nat}

theorem spriteCovers_iff {px py : Nat} :
    spriteCovers s x y n px py = true ↔ ∃ r < n, ∃ c < 8, (s.byteAt (indexAddr s r)).getMsbD c = true ∧
      ((s.getV x).toNat + c) % s.params.displayW = px ∧ ((s.getV y).toNat + r) % s.params.displayH = py := by
  simp [spriteCovers, and_assoc]

/-- A covered pixel with some property is a 1 bit that meets such a pixel (R242, R244). -/
theorem exists_spriteCovers_iff (hp : s.params.legal) {P : Nat → Nat → Prop} :
    (∃ px < s.params.displayW, ∃ py < s.params.displayH, P px py ∧ spriteCovers s x y n px py = true) ↔
      ∃ r < n, ∃ c < 8, (s.byteAt (indexAddr s r)).getMsbD c = true ∧
        P (((s.getV x).toNat + c) % s.params.displayW) (((s.getV y).toNat + r) % s.params.displayH) := by
  obtain ⟨-, -, -, -, hw, hh, -⟩ := hp
  constructor
  · rintro ⟨_, -, _, -, hP, hcovers⟩
    obtain ⟨r, hr, c, hc, hbit, rfl, rfl⟩ := spriteCovers_iff.mp hcovers
    exact ⟨r, hr, c, hc, hbit, hP⟩
  · rintro ⟨r, hr, c, hc, hbit, hP⟩
    exact ⟨_, Nat.mod_lt _ hw, _, Nat.mod_lt _ hh, hP, spriteCovers_iff.mpr ⟨r, hr, c, hc, hbit, rfl, rfl⟩⟩

/-! ### One draw (R247) -/

/-- The display Dxyn leaves, with whether the sprite collided. -/
def State.drawn (s : State) (x y : RegIdx) (n : Nat) : Display × Bool :=
  s.disp.drawSprite s.params (s.getV x).toNat (s.getV y).toNat ((List.range n).map fun k => s.byteAt (indexAddr s k))

theorem exec_drw_of_fit (h : n = 0 ∨ s.i.toNat + n ≤ s.params.memSize) :
    exec (.drw x y n) s
      = .next (State.setV { s with disp := (s.drawn x y n).1 } 15 (collisionFlag (s.drawn x y n).2)).advance :=
  (execDrw_eq x y n s).trans (if_pos h)

theorem exec_drw_of_beyond (hn : n ≠ 0) (h : s.params.memSize < s.i.toNat + n) :
    exec (.drw x y n) s
      = .next (s.enterFault .outOfBounds (some (encode (.drw x y n))) (some (max s.i.toNat s.params.memSize))) :=
  (execDrw_eq x y n s).trans (if_neg (not_or.mpr ⟨hn, Nat.not_le.mpr h⟩))

theorem length_disp_of_exec_drw {t : State} (h : exec (.drw x y n) s = .next t) : t.disp.length = s.disp.length := by
  cases effect_of_exec h with
  | draw _ hd => exact hd
  | _ => rfl

/-- A draw leaves the sprite and, in registers that are not VF, its place. -/
theorem spriteCovers_of_exec_drw {t : State} (hx : x ≠ 15) (hy : y ≠ 15) (h : exec (.drw x y n) s = .next t) :
    spriteCovers t x y n = spriteCovers s x y n := by
  have heffect := effect_of_exec h
  have hVx : t.getV x = s.getV x := heffect.getV_eq (by simpa [Instr.writesReg] using hx)
  have hVy : t.getV y = s.getV y := heffect.getV_eq (by simpa [Instr.writesReg] using hy)
  have hmem : t.mem = s.mem := heffect.mem_eq nofun nofun
  funext px py
  simp only [spriteCovers, State.byteAt, indexAddr, hVx, hVy, hmem, heffect.i_eq rfl, heffect.params_eq]

section
variable (hp : s.params.legal) (hd : s.disp.wf s.params) (h8 : 8 ≤ s.params.displayW) (hn : n ≤ s.params.displayH)
include hp hd h8 hn

theorem State.drawn_pixel {px py : Nat} (hx : px < s.params.displayW) (hy : py < s.params.displayH) :
    (s.drawn x y n).1.pixel s.params px py = (s.pixel px py ^^ spriteCovers s x y n px py) := by
  rw [← rowsCover_eq_spriteCovers hp x y n hx hy]
  exact Display.drawSprite_pixel hp hd h8 _ _ (by simpa using hn) px py

theorem State.drawn_collides :
    (s.drawn x y n).2 = true ↔ ∃ px < s.params.displayW, ∃ py < s.params.displayH,
      s.pixel px py = true ∧ spriteCovers s x y n px py = true := by
  rw [exists_spriteCovers_iff hp, State.drawn, Display.drawSprite_collides hp hd h8 _ _ (by simpa using hn)]
  simp [State.pixel, Display.pixel_mod]

end
end

/-! ### The flag -/

theorem collisionFlag_byte_eq_one_iff {b : Bool} : (collisionFlag b : Byte) = 1 ↔ b = true := by
  cases b <;> decide

theorem collisionFlag_byte_eq_zero_or_one (b : Bool) : (collisionFlag b : Byte) = 0 ∨ (collisionFlag b : Byte) = 1 := by
  cases b <;> decide

/-! ### The statements of the family -/

/-- Settles O38, by whether the sprite lies within memory. -/
theorem drawInvertsSpritePixels : Obligations.DrawInvertsSpritePixels := by
  unfold Obligations.DrawInvertsSpritePixels
  refine fun x y n s _ => ⟨fun hfit => ⟨_, exec_drw_of_fit hfit, ?_⟩, exec_drw_of_beyond⟩
  rw [State.getV_advance, State.getV_setV_self]
  refine ⟨rfl, collisionFlag_byte_eq_zero_or_one _, fun hp hd h8 hn => ⟨fun px hx py hy => ?_, ?_⟩⟩
  · exact State.drawn_pixel hp hd h8 hn hx hy
  · exact collisionFlag_byte_eq_one_iff.trans (State.drawn_collides hp hd h8 hn)

/-- Settles O39: what a draw inverts, the same draw inverts back; it collides where the first one set a pixel. -/
theorem drawTwiceRestoresDisplay : Obligations.DrawTwiceRestoresDisplay := by
  unfold Obligations.DrawTwiceRestoresDisplay
  intro x y n s hwf hx hy hp hd h8 hn hfit
  obtain ⟨t, ht, -, -, hfirst⟩ := (drawInvertsSpritePixels x y n s hwf).1 hfit
  obtain ⟨hinverted, -⟩ := hfirst hp hd h8 hn
  have hparams : t.params = s.params := (effect_of_exec ht).params_eq
  have hi : t.i = s.i := (effect_of_exec ht).i_eq rfl
  have hlength : t.disp.length = s.disp.length := length_disp_of_exec_drw ht
  obtain ⟨u, hu, -, -, hsecond⟩ := (drawInvertsSpritePixels x y n t hwf).1 (by rwa [hparams, hi])
  have huparams : u.params = s.params := (effect_of_exec hu).params_eq.trans hparams
  rw [hparams, spriteCovers_of_exec_drw hx hy ht] at hsecond
  obtain ⟨hrestored, hcollides⟩ := hsecond hp (hlength.trans hd) h8 hn
  have hflag : u.getV 15 = 1 ↔ ∃ px < s.params.displayW, ∃ py < s.params.displayH,
      s.pixel px py = false ∧ spriteCovers s x y n px py = true := by
    rw [hcollides]
    refine exists_congr fun px => and_congr_right fun hpx => exists_congr fun py => and_congr_right fun hpy => ?_
    rw [hinverted px hpx py hpy]
    cases s.pixel px py <;> simp
  refine ⟨t, u, ht, hu, ?_, hflag, fun hclear => ?_⟩
  · refine Display.ext_pixel hp (((length_disp_of_exec_drw hu).trans hlength).trans hd) hd fun px hpx py hpy => ?_
    have hpixel := hrestored px hpx py hpy
    rwa [hinverted px hpx py hpy, Bool.xor_assoc, Bool.xor_self, Bool.xor_false, State.pixel, huparams] at hpixel
  · rw [hflag, exists_spriteCovers_iff hp]
    simp [State.pixel, hclear]

/-- Settles O37: the cleared display has its size and no set pixel. -/
theorem clearDisplay : Obligations.ClearDisplay := by
  unfold Obligations.ClearDisplay
  exact fun s => ⟨_, rfl, rfl, Display.wf_clear, Display.pixel_clear⟩

/-- Settles O40: the buffer is the grid, each entry as a byte. -/
theorem bufferIsRowMajor : Obligations.BufferIsRowMajor := by
  unfold Obligations.BufferIsRowMajor
  refine fun s hd => ⟨(List.length_map _).trans hd, fun px hx py hy => ?_⟩
  rw [State.buffer, List.getElem?_map, Display.getElem?_eq_pixel hd hx hy]
  rfl

end Sys2Proof.Machine

/-! Proofs, keyboard and timer (spec/44_keyboard_timer.md): the skips by whether the key is pressed, a pending wait as a poll and
as the Fx0A at `pc` fetched again, and the value a timer read loads. -/

namespace Sys2Proof.Machine

/-! ### The pressed key (R328) -/

theorem State.isPressed_eq_false_iff {nr rw pw iw nk : Nat} (s : State nr rw pw iw nk) (b : BitVec rw) :
    s.isPressed b = false ↔ ∀ k, s.key = some k → k.val ≠ b.toNat := by
  rw [← Bool.not_eq_true, State.isPressed_iff]
  simp

section
variable {s : State} {x : RegIdx}

/-- Ex9E skips when the key Vx names is pressed, ExA1 when it is not (R270, R271). -/
theorem exec_skips_of_isPressed_eq {c : Bool} (h : s.isPressed (s.getV x) = c) :
    exec (.skp x) s = .next (s.skipIf c) ∧ exec (.sknp x) s = .next (s.skipIf !c) :=
  h ▸ ⟨rfl, rfl⟩

/-! ### The key wait (R272) -/

/-- A poll without a key leaves a wait that is pending already as it is. -/
theorem State.keyWaitPoll_of_pending (hkey : s.key = none) (hw : s.waitX = some x) : s.keyWaitPoll x = s := by
  rw [State.keyWaitPoll_none x hkey, ← hw]

/-- A poll does not look at what is pending: it ends the wait or sets it. -/
theorem State.keyWaitPoll_withWaitX (w : Option RegIdx) : State.keyWaitPoll { s with waitX := w } x = s.keyWaitPoll x := by
  obtain hkey | ⟨k, hkey⟩ := s.key.eq_none_or_eq_some
  · exact (State.keyWaitPoll_none (s := { s with waitX := w }) x hkey).trans (State.keyWaitPoll_none x hkey).symm
  · exact (State.keyWaitPoll_some (s := { s with waitX := w }) x hkey).trans (State.keyWaitPoll_some x hkey).symm

/-! ### The instruction at `pc` (R140, R141) -/

theorem State.exists_decode_of_instrAtPc {i : Instr} (h : s.instrAtPc = some i) :
    ∃ op, s.fetch = .ok op ∧ decode op = .ok i := by
  cases hf : s.fetch with
  | error a => simp [State.instrAtPc, hf] at h
  | ok op =>
    cases hd : decode op with
    | error e => simp [State.instrAtPc, hf, hd] at h
    | ok j => exact ⟨op, rfl, by simpa [State.instrAtPc, hf, hd] using h⟩

theorem runStep_of_instrAtPc {i : Instr} (hr : s.status = .running) (hw : s.waitX = none) (hi : s.instrAtPc = some i) :
    runStep s = exec i s := by
  obtain ⟨op, hf, hd⟩ := State.exists_decode_of_instrAtPc hi
  exact runStep_of_decode_ok hr hw hf hd

/-- What stands at `pc` does not depend on a pending wait. -/
theorem State.instrAtPc_withWaitX (w : Option RegIdx) : State.instrAtPc { s with waitX := w } = s.instrAtPc :=
  rfl

end

/-! ### The observed timer (R321) -/

theorem State.timerObserved_of_now_le {nr rw pw iw nk : Nat} {s : State nr rw pw iw nk} (h : s.now ≤ s.timerInstant) :
    s.timerObserved = s.timerValue := by
  have hticks : s.elapsedTicks = 0 := by rw [State.elapsedTicks, Nat.sub_eq_zero_of_le h, Nat.zero_div]
  exact BitVec.eq_of_toNat_eq (by rw [State.toNat_timerObserved, hticks, Nat.sub_zero])

/-- Fx07 writes the observed value, which has the width of a register, to Vx only (R273). -/
theorem exec_ldVxDt (x : RegIdx) (s : State) : exec (.ldVxDt x) s = .next (writeResult x s.timerObserved s) :=
  congrArg (fun b => Host.Outcome.next (writeResult x b s)) (BitVec.setWidth_eq s.timerObserved)

/-! ### The statements of the family -/

/-- Settles O13: the invariant has the pending Fx0A at `pc`, so fetching it again executes it, which polls as the wait does. -/
theorem keyWaitEqualsRefetch : Obligations.KeyWaitEqualsRefetch := by
  unfold Obligations.KeyWaitEqualsRefetch
  intro s x hs hr hw
  have hpolls : runStep s = exec (.ldK x) s := runStep_waiting hr hw
  have hrefetch : runStep { s with waitX := none } = exec (.ldK x) { s with waitX := none } :=
    runStep_of_instrAtPc hr rfl ((State.instrAtPc_withWaitX none).trans (hs.waiting x hw))
  have hsame : exec (.ldK x) { s with waitX := none } = exec (.ldK x) s :=
    congrArg Host.Outcome.next (State.keyWaitPoll_withWaitX none)
  exact ⟨hpolls.trans (hrefetch.trans hsame).symm, hpolls⟩

/-- Settles O12, by the two cases of a poll. -/
theorem keyWaitPolls : Obligations.KeyWaitPolls := by
  unfold Obligations.KeyWaitPolls
  intro s x hr hw
  rw [runStep_waiting hr hw]
  exact ⟨fun hkey => congrArg Host.Outcome.next (State.keyWaitPoll_of_pending hkey hw),
    fun _ hkey => congrArg Host.Outcome.next (State.keyWaitPoll_some x hkey)⟩

/-- Settles O41: a byte of 16 or more differs from every key, so the last clause is a case of the second. -/
theorem skipsOnKey : Obligations.SkipsOnKey := by
  unfold Obligations.SkipsOnKey
  refine fun x s => ⟨fun k hkey hk => ?_, fun hnone => ?_, fun hbig => ?_⟩
  · exact exec_skips_of_isPressed_eq ((s.isPressed_iff _).mpr ⟨k, hkey, hk⟩)
  · exact exec_skips_of_isPressed_eq ((s.isPressed_eq_false_iff _).mpr hnone)
  · exact exec_skips_of_isPressed_eq ((s.isPressed_eq_false_iff _).mpr fun k _ => (k.isLt.trans_le hbig).ne)

/-- Settles O42: the step that executes Fx0A polls at once. -/
theorem keyLoadOrWait : Obligations.KeyLoadOrWait := by
  unfold Obligations.KeyLoadOrWait
  intro x s
  exact ⟨fun _ hkey => congrArg Host.Outcome.next (State.keyWaitPoll_some x hkey),
    fun hkey => congrArg Host.Outcome.next (State.keyWaitPoll_none x hkey)⟩

/-- Settles O43: a register has the width of the timer's value, and Fx18 is an advance. -/
theorem timerSetAndNoSound : Obligations.TimerSetAndNoSound := by
  unfold Obligations.TimerSetAndNoSound
  intro x s
  exact ⟨congrArg (fun b => Host.Outcome.next (s.timerSet b).advance) (BitVec.setWidth_eq (s.getV x)), rfl⟩

/-- Settles O44: the read is a write of the observed value. -/
theorem timerReadIsSetValueLessTicks : Obligations.TimerReadIsSetValueLessTicks := by
  unfold Obligations.TimerReadIsSetValueLessTicks
  refine fun x s => ⟨_, exec_ldVxDt x s, rfl, fun k => getV_writeResult_of_ne, fun _ => ?_, fun hbehind => ?_⟩
  · exact (congrArg _ (getV_writeResult_self x _ s)).trans s.toNat_timerObserved
  · exact (getV_writeResult_self x _ s).trans (State.timerObserved_of_now_le hbehind.le)

end Sys2Proof.Machine

/-! Proofs, exceptions and the host (spec/60_exceptions.md): the faults an instruction raises and the record each leaves, what
`Status()` answers, and the timer as it decays. -/

namespace Sys2Proof.Machine

/-! ### The faults of an executed instruction (R300) -/

/-- The instructions that raise a fault, each with the state it leaves: 00EE, 2nnn on a full stack, and the transfers that leave
memory (R300, R301). -/
theorem Effect.fault_cases {s t : State} {i : Instr} {r : FaultRecord} (h : Effect s i t) (hr : s.status = .running)
    (ht : t.status = .faulted r) :
    (i = .ret ∧ t = s.enterFault .stackUnderflow (some (encode i)) none) ∨
    (∃ nnn, i = .call nnn ∧ s.params.stackCapacity = some s.stack.length ∧
      t = s.enterFault .stackOverflow (some (encode i)) none) ∨
    (∃ a, i.mayFault = true ∧ i ≠ .ret ∧ s.params.memSize ≤ a ∧
      t = s.enterFault .outOfBounds (some (encode i)) (some a)) := by
  cases h with
  | underflow => exact .inl ⟨rfl, rfl⟩
  | overflow hfull => exact .inr (.inl ⟨_, rfl, hfull, rfl⟩)
  | outOfBounds hi hret ha => exact .inr (.inr ⟨_, hi, hret, ha, rfl⟩)
  | _ => exact nomatch hr.symm.trans ht

theorem Instr.ne_call_of_mayFault {i : Instr} (h : i.mayFault = true) (nnn : Addr12) : i ≠ .call nnn := by
  rintro rfl
  cases h

/-! ### The record a fault leaves (R301) -/

/-- The address in a fault record: for OutOfBounds one at or above `MEM_SIZE`, for every other fault none (R301). -/
def FaultCode.AddrFits (code : FaultCode) (p : Params) (addr : Option Nat) : Prop :=
  (addr.isSome = true ↔ code = .outOfBounds) ∧ ∀ a, addr = some a → p.memSize ≤ a

theorem FaultCode.addrFits_outOfBounds {p : Params} {a : Nat} (ha : p.memSize ≤ a) :
    FaultCode.outOfBounds.AddrFits p (some a) :=
  ⟨by simp, fun _ h => Option.some.inj h ▸ ha⟩

theorem FaultCode.addrFits_none {code : FaultCode} {p : Params} (h : code ≠ .outOfBounds) : code.AddrFits p none :=
  ⟨by simp [h], nofun⟩

theorem State.le_of_fetch_eq_error {s : State} {a : Nat} (h : s.fetch = .error a) : s.params.memSize ≤ a := by
  rw [State.fetch_eq] at h
  split at h
  · cases h
  · cases h
    exact Nat.le_max_right ..

@[simp] theorem State.keyWaitPoll_status {nr rw pw iw nk : Nat} (s : State nr rw pw iw nk) (x : Fin nr) :
    (s.keyWaitPoll x).status = s.status := by
  cases hkey : s.key with
  | none => rw [State.keyWaitPoll_none x hkey]
  | some k => rw [State.keyWaitPoll_some x hkey, State.takeKey_status]

/-- A step that faults changes nothing but the status, and its record has the opcode if one was fetched (R301, R303). -/
theorem exists_enterFault_of_runStep {s t : State} {r : FaultRecord} (hr : s.status = .running) (h : runStep s = .next t)
    (ht : t.status = .faulted r) :
    ∃ code addr, t = s.enterFault code s.fetch.toOption addr ∧ code.AddrFits s.params addr := by
  rcases cycle_cases exec s with
    ⟨_, hfaulted, _⟩ | ⟨x, _, _, hc⟩ | ⟨a, _, _, hf, hc⟩ | ⟨op, _, _, _, hf, _, hc⟩ | ⟨op, i, _, _, hf, hd, hc⟩
  · exact nomatch hr.symm.trans hfaulted
  · cases hc.symm.trans h
    exact nomatch (hr.symm.trans (s.keyWaitPoll_status x).symm).trans ht
  · rw [hf]
    cases hc.symm.trans h
    exact ⟨_, _, rfl, FaultCode.addrFits_outOfBounds (State.le_of_fetch_eq_error hf)⟩
  · rw [hf]
    cases hc.symm.trans h
    exact ⟨_, _, rfl, FaultCode.addrFits_none nofun⟩
  · rw [hf, ← (encode_of_decode hd).1]
    rcases (effect_of_exec (hc.symm.trans h)).fault_cases hr ht with ⟨_, he⟩ | ⟨_, _, _, he⟩ | ⟨_, _, _, ha, he⟩
    · exact ⟨_, _, he, FaultCode.addrFits_none nofun⟩
    · exact ⟨_, _, he, FaultCode.addrFits_none nofun⟩
    · exact ⟨_, _, he, FaultCode.addrFits_outOfBounds ha⟩

/-! ### The timer as it decays (R324) -/

/-- Fx07 at the sample `n` after a set loads the value set less the ticks between (R321, R322). -/
theorem exec_ldVxDt_of_timerSet (y : RegIdx) (s : State) (b : Byte) (n : Nat) :
    ∃ u, exec (.ldVxDt y) { (s.timerSet b).advance with now := n } = .next u ∧
      (u.getV y).toNat = b.toNat - (n - s.now) / s.params.tickMs :=
  ⟨_, exec_ldVxDt y _, (congrArg BitVec.toNat (getV_writeResult_self y _ _)).trans (State.toNat_timerObserved _)⟩

/-- Less is left at a later sample. -/
theorem sub_ticks_antitone (b start tick : Nat) : Antitone fun n => b - (n - start) / tick :=
  fun _ _ hnm => Nat.sub_le_sub_left (Nat.div_le_div_right (Nat.sub_le_sub_right hnm start)) b

/-- Nothing is left once a period has passed for each unit of the value. -/
theorem sub_ticks_eq_zero {b start tick n : Nat} (htick : 0 < tick) (h : start + tick * b ≤ n) :
    b - (n - start) / tick = 0 := by
  have hb : b ≤ (n - start) / tick := by
    rw [Nat.le_div_iff_mul_le htick, Nat.mul_comm]
    omega
  exact Nat.sub_eq_zero_of_le hb

/-! ### What `Status()` answers (R304) -/

section
variable {nr rw pw iw nk : Nat} {s : State nr rw pw iw nk}

theorem State.hostStatus_of_faulted {r : FaultRecord pw} (h : s.status = .faulted r) : s.hostStatus = .faulted r := by
  simp [State.hostStatus, h]

theorem State.hostStatus_of_running (h : s.status = .running) :
    s.hostStatus = if s.waitX = none then .running else .waitingForKey := by
  simp [State.hostStatus, h]

end

/-! ### The statements of the family -/

/-- Settles O45: the value read is what the ticks between leave of Vx, which falls with the sample and reaches 0. -/
theorem timerDecaysToZero : Obligations.TimerDecaysToZero := by
  unfold Obligations.TimerDecaysToZero
  intro x y s n m htick _ hnm
  obtain ⟨u, hu, hun⟩ := exec_ldVxDt_of_timerSet y s (s.getV x) n
  obtain ⟨w, hw, hwm⟩ := exec_ldVxDt_of_timerSet y s (s.getV x) m
  refine ⟨_, u, w, (timerSetAndNoSound x s).1, hu, hw, hun, ?_, fun hend => ?_⟩
  · rw [hun, hwm]
    exact sub_ticks_antitone _ _ _ hnm
  · exact BitVec.eq_of_toNat_eq (hun.trans (sub_ticks_eq_zero htick hend))

/-- Settles O50: a step that faults only enters the fault. -/
theorem faultsArePrecise : Obligations.FaultsArePrecise := by
  unfold Obligations.FaultsArePrecise
  intro s t r hr h ht
  obtain ⟨code, addr, rfl, hcode, haddr⟩ := exists_enterFault_of_runStep hr h ht
  cases ht
  refine ⟨rfl, rfl, fun op => ?_, hcode, haddr⟩
  cases s.fetch <;> simp [Except.toOption]

/-- Settles O51, by the instructions that raise a fault. -/
theorem onlyFiveInstructionsFault : Obligations.OnlyFiveInstructionsFault := by
  unfold Obligations.OnlyFiveInstructionsFault
  intro i s t r hr h ht
  rcases (effect_of_exec h).fault_cases hr ht with ⟨rfl, rfl⟩ | ⟨nnn, rfl, hfull, rfl⟩ | ⟨a, hi, hret, _, rfl⟩
  · cases ht
    simp [Instr.mayFault]
  · cases ht
    simp [hfull]
  · cases ht
    simp [hi, hret, Instr.ne_call_of_mayFault hi]

/-- Settles O57, by the status and the wait. -/
theorem statusAnswers : Obligations.StatusAnswers := by
  unfold Obligations.StatusAnswers
  intro s
  exact ⟨fun _ => State.hostStatus_of_faulted, fun hr hw => (State.hostStatus_of_running hr).trans (if_neg hw),
    fun hr hw => (State.hostStatus_of_running hr).trans (if_pos hw)⟩

end Sys2Proof.Machine

/-! Proofs, reset and hazards (spec/70_reset_and_hazards.md): when a ROM is launched and the state it is launched in, what the
first step after the launch of an empty ROM fetches, and the statements of the family. -/

namespace Sys2Proof.Machine

/-! ### Which ROMs are launched (R353) -/

section
variable {p : Params} {rom : List Byte} {nr rw pw iw nk : Nat}

theorem State.boot_of_fit (now : Nat) (h : p.loadAddr + rom.length ≤ p.memSize) :
    State.boot p rom now nr rw pw iw nk =
      some { State.resetWith p nr rw pw iw nk with mem := Memory.writeAll [] p p.loadAddr rom, now := now, timerInstant := now } :=
  if_pos (decide_eq_true h)

theorem State.boot_of_not_fit (now : Nat) (h : p.memSize < p.loadAddr + rom.length) :
    State.boot p rom now nr rw pw iw nk = none :=
  if_neg fun hfit => Nat.not_le_of_lt h (of_decide_eq_true hfit)

end

/-! ### The fetch after an empty ROM (R353) -/

/-- With no ROM `pc` points at two of the bytes that memory resets to 0 (R45). -/
theorem State.fetch_reset : State.reset.fetch = .ok 0x0000 := by
  have hfetch := State.fetch_at (s := State.reset) (p := 0x200) (by decide)
  rw [State.byteAt_reset_of_le (by decide), State.byteAt_reset_of_le (by decide)] at hfetch
  exact hfetch

/-- Neither the time of reset nor the host's moves change what is fetched. -/
theorem fetch_takeHostInput_of_boot_nil {now : Nat} {s : State} (h : State.boot Params.hardware [] now = some s) :
    s.takeHostInput.fetch = .ok 0x0000 := by
  obtain ⟨-, rfl⟩ := State.boot_eq_some h
  exact (State.fetch_takeHostInput _).trans State.fetch_reset

/-! ### The statements of the family -/

/-- Settles O55: the launched state is the reset state with one block write, which is the ROM inside the block and nothing
outside it. -/
theorem resetLoadsRom : Obligations.ResetLoadsRom := by
  unfold Obligations.ResetLoadsRom
  intro p rom now
  refine ⟨fun hfit => ⟨_, State.boot_of_fit now hfit, rfl, ?_, fun k hk => ?_, fun a ha => ?_⟩, State.boot_of_not_fit now⟩
  · exact Memory.wf_writeAll (Memory.wf_nil p) hfit
  · exact Memory.read_writeAll_getElem [] p p.loadAddr hk
  · exact Memory.read_writeAll_of_outside ha

/-- Settles O14: the jump writes `pc` with the value it has. -/
theorem selfJumpChangesNothing : Obligations.SelfJumpChangesNothing := by
  unfold Obligations.SelfJumpChangesNothing
  intro s nnn hr hw hi hself
  rw [runStep_of_instrAtPc hr hw hi, jumpSetsPc nnn s, hself]

/-- Settles O56: the decoder rejects the word 0x0000, which is fetched at the load address. -/
theorem emptyRomFaultsAtOnce : Obligations.EmptyRomFaultsAtOnce := by
  unfold Obligations.EmptyRomFaultsAtOnce
  intro now s h
  have hf := fetch_takeHostInput_of_boot_nil h
  have hd : decode 0x0000 = .error .illegalGroup0 := rfl
  obtain ⟨-, rfl⟩ := State.boot_eq_some h
  exact ⟨_, runStep_of_decode_error rfl rfl hf hd, rfl⟩

end Sys2Proof.Machine
